-- ==== Sys2Proof/Word.lean ====
section
/-! DEFINITION. The word types of the machine (00_scope.md R12): a byte is 8 bits, a word 16 bits. Byte order, byte views
and sign or zero extension are in Decode.lean (instruction stream) and Machine/Ops.lean (registers and memory). -/

namespace Sys2Proof

/-- A byte (R12): one memory cell, one instruction-stream byte, one byte view of a register. -/
abbrev Byte := BitVec 8

/-- A word (R12): one register, one immediate, one memory word. -/
abbrev Word := BitVec 16

end Sys2Proof
end

