-- ==== Sys2Proof/Config.lean ====
section
/-! DEFINITION. What is fixed for a run: the memory capacity (R9), what a memory byte that nothing has written reads as
(log 7), the form of an opcode-table row (R83) and the named parameters a model takes as arguments (R10). The default
table and the default parameters are in Decode.lean, beside the decoder that reads them. -/

namespace Sys2Proof

/-- Memory capacity `CAP` (R9, R50): the valid linear addresses are `0 .. 0x10FFEF`. -/
def Config.cap : Nat := 0x10FFF0

/-- What a byte of memory that nothing has written reads as. DESIGN CHOICE (log 7): the spec leaves `P_INIT_MEM` open. -/
def Config.unlistedByte : Byte := 0x00

/-- The two opcode kinds (R87). The kinds are closed (R143). -/
inductive Kind where
  | move
  | halt
  deriving DecidableEq, Repr

/-- A descriptor, one row of the opcode table (R83): the encoding byte, the kind, the base size (R98) and the seven
encoding-shape flags as named booleans, D W R M S I A in that order. -/
structure Desc where
  byte          : Byte
  kind          : Kind
  baseSize      : Nat
  direction     : Bool
  width         : Bool
  regInOpcode   : Bool
  modRM         : Bool
  segModRM      : Bool
  immediate     : Bool
  directAddress : Bool
  deriving DecidableEq, Repr

/-- `P_EA_SEG` (R10, R111): the segment added to a memory operand's offset, `None` or `DS`. -/
inductive EaSeg where
  | unsegmented
  | ds
  deriving DecidableEq, Repr

/-- The parameters that shape decoding and execution (R10), in the order of its table: `P_TABLE`, `P_BYTE_ROWS`,
`P_EA_SEG`, `P_EA_WRAP16`, `P_IP_WRAP16`. The launch arguments of R10 are in Machine/Launch.lean. -/
structure Params where
  table    : List Desc
  byteRows : Bool
  eaSeg    : EaSeg
  eaWrap16 : Bool
  ipWrap16 : Bool
  deriving DecidableEq, Repr

end Sys2Proof
end

