-- ==== Sys2Proof/Syntax.lean ====
section
/-! DEFINITION. The abstract form of instructions: register names (R20, R26), decoded operands (R14, R82), the
register-or-memory side of a ModRM byte (R104 to R109), and the one inductive `Instr` with one constructor per row of
spec/opcode_table.json (R95). -/

namespace Sys2Proof

/-- The eight general registers, in index order (R20). -/
inductive GReg where
  | ax | cx | dx | bx | sp | bp | si | di
  deriving DecidableEq, Repr

/-- The four segment registers, in index order (R26). -/
inductive SReg where
  | es | cs | ss | ds
  deriving DecidableEq, Repr

/-- A register of either file: "an index into the register or segment-register file" with its file (R14, R38). -/
inductive RegRef where
  | gen (r : GReg)
  | seg (r : SReg)
  deriving DecidableEq, Repr

/-- A decoded operand (R14, R82). An empty slot is `none` of `Option Operand`. -/
inductive Operand where
  | reg (r : RegRef)
  | mem (a : Nat)
  | imm (v : Word)
  deriving DecidableEq, Repr

/-- The decoder's output for a table row (R81): kind, destination `op1`, source `op2`, size in bytes. -/
structure Decoded where
  kind : Kind
  op1  : Option Operand
  op2  : Option Operand
  size : Nat
  deriving DecidableEq, Repr

/-- The eight effective-address bases, in rm order (R105). -/
inductive EaBase where
  | bxSi | bxDi | bpSi | bpDi | si | di | bp | bx
  deriving DecidableEq, Repr

/-- The ModRM side (R16): a general register for mod 3 (R109), a direct address for mod 0 with rm 6 (R106), a base for
mod 0 (R105), a base and a displacement of one byte for mod 1 (R107) or two bytes for mod 2 (R108). -/
inductive RmOp where
  | reg    (r : GReg)
  | direct (addr : Word)
  | base   (b : EaBase)
  | disp8  (b : EaBase) (d : Byte)
  | disp16 (b : EaBase) (d : Word)
  deriving DecidableEq, Repr

/-- One constructor per row of the opcode table (R95), in its order. A name with `movb` is a row whose width bit is clear
(`MOV.B` in R127); it still moves 16 bits (R170). In the segment rows `ign` is the ModRM reg field, which the hardware
reads and does not use (R115); the instruction holds it so that encoding drops no bit (log 10). -/
inductive Instr where
  | movbRegRm  (reg : GReg) (rm : RmOp)
  | movRegRm   (reg : GReg) (rm : RmOp)
  | movbRmReg  (rm : RmOp) (reg : GReg)
  | movRmReg   (rm : RmOp) (reg : GReg)
  | movGprSeg  (ign : BitVec 3) (rm : SReg)
  | movSegGpr  (ign : BitVec 3) (rm : SReg)
  | movbAxMem  (addr : Word)
  | movAxMem   (addr : Word)
  | movbMemAx  (addr : Word)
  | movMemAx   (addr : Word)
  | movbAxImm8 (imm : Byte)
  | movbCxImm8 (imm : Byte)
  | movbDxImm8 (imm : Byte)
  | movbBxImm8 (imm : Byte)
  | movbSpImm8 (imm : Byte)
  | movbBpImm8 (imm : Byte)
  | movbSiImm8 (imm : Byte)
  | movbDiImm8 (imm : Byte)
  | movAxImm16 (imm : Word)
  | movCxImm16 (imm : Word)
  | movDxImm16 (imm : Word)
  | movBxImm16 (imm : Word)
  | movSpImm16 (imm : Word)
  | movBpImm16 (imm : Word)
  | movSiImm16 (imm : Word)
  | movDiImm16 (imm : Word)
  | movbRmImm8 (rm : RmOp) (imm : Byte)
  | movRmImm16 (rm : RmOp) (imm : Word)
  | hlt
  deriving DecidableEq, Repr

end Sys2Proof
end

