-- ==== Sys2Proof/WellFormed.lean ====
section
/-! DEFINITION. Which instruction terms have an encoding. One check: mod 0 with rm 6 means a direct address, not `[BP]`
(R106), so the form "base BP, no displacement" does not exist. Every other operand type holds exactly what its encoding
field can hold. -/

namespace Sys2Proof

/-- A ModRM side that some ModRM byte names (R105, R106): `[BP]` without displacement has no encoding. -/
def RmOp.wf : RmOp → Bool
  | .base .bp => false
  | .reg _ | .direct _ | .base _ | .disp8 _ _ | .disp16 _ _ => true

/-- A well-formed instruction: its ModRM side, where it has one, has an encoding. -/
def Instr.wf : Instr → Bool
  | .movbRegRm _ rm => rm.wf
  | .movRegRm _ rm => rm.wf
  | .movbRmReg rm _ => rm.wf
  | .movRmReg rm _ => rm.wf
  | .movbRmImm8 rm _ => rm.wf
  | .movRmImm16 rm _ => rm.wf
  | .movGprSeg _ _ => true
  | .movSegGpr _ _ => true
  | .movbAxMem _ => true
  | .movAxMem _ => true
  | .movbMemAx _ => true
  | .movMemAx _ => true
  | .movbAxImm8 _ => true
  | .movbCxImm8 _ => true
  | .movbDxImm8 _ => true
  | .movbBxImm8 _ => true
  | .movbSpImm8 _ => true
  | .movbBpImm8 _ => true
  | .movbSiImm8 _ => true
  | .movbDiImm8 _ => true
  | .movAxImm16 _ => true
  | .movCxImm16 _ => true
  | .movDxImm16 _ => true
  | .movBxImm16 _ => true
  | .movSpImm16 _ => true
  | .movBpImm16 _ => true
  | .movSiImm16 _ => true
  | .movDiImm16 _ => true
  | .hlt => true

end Sys2Proof
end

