-- ==== Sys2Proof/Decode.lean ====
section
/-! DEFINITION. The decoder and the encoder (30_encoding.md). First the byte helpers and fields of the instruction stream
(R59, R84, R86), then the opcode table as data (R83, R95 to R98), then the decoder on a list of bytes, total, rejecting by
name (R100 to R120), then the encoder written from the formats R89 to R94, and the host's word form. The table-driven
algorithm R99 over the machine state, for any table, is in Machine/Engine.lean. -/

namespace Sys2Proof

/-! ### Byte helpers (R12) -/

/-- `le16(b0, b1) = b0 + 256*b1`: a word of the instruction stream, the byte at the lower address first (R12, R59, C1). -/
def le16 (b0 b1 : Byte) : Word := b1 ++ b0

/-- `zext_16(b)` (R12). -/
def zext16 (b : Byte) : Word := b.zeroExtend 16

/-- `sext_16(b)` (R12): defined for completeness, no rule of this hardware uses it. -/
def sext16 (b : Byte) : Word := b.signExtend 16

/-- The low byte of an instruction-stream field (30_encoding.md section 3: `lo`). -/
def fieldLo (w : Word) : Byte := w.extractLsb' 0 8

/-- The high byte of an instruction-stream field (30_encoding.md section 3: `hi`). -/
def fieldHi (w : Word) : Byte := w.extractLsb' 8 8

/-! ### Fields (R84, R86) -/

/-- General register of an index (R20). -/
def GReg.ofIndex (i : BitVec 3) : GReg :=
  match i with
  | 0#3 => .ax
  | 1#3 => .cx
  | 2#3 => .dx
  | 3#3 => .bx
  | 4#3 => .sp
  | 5#3 => .bp
  | 6#3 => .si
  | 7#3 => .di

/-- Index of a general register (R20). -/
def GReg.index : GReg → BitVec 3
  | .ax => 0
  | .cx => 1
  | .dx => 2
  | .bx => 3
  | .sp => 4
  | .bp => 5
  | .si => 6
  | .di => 7

/-- Segment register of an rm field; rm in 4..7 names none (R26, R115). -/
def SReg.ofIndex? (i : BitVec 3) : Option SReg :=
  match i with
  | 0#3 => some .es
  | 1#3 => some .cs
  | 2#3 => some .ss
  | 3#3 => some .ds
  | _ => none

/-- Index of a segment register (R26). -/
def SReg.index : SReg → BitVec 3
  | .es => 0
  | .cs => 1
  | .ss => 2
  | .ds => 3

/-- The general register the segment rows pair with a segment register: both are named by the same rm field (R115, R127). -/
def SReg.paired (r : SReg) : GReg := GReg.ofIndex r.index

/-- Effective-address base of an rm field (R105). -/
def EaBase.ofIndex (i : BitVec 3) : EaBase :=
  match i with
  | 0#3 => .bxSi
  | 1#3 => .bxDi
  | 2#3 => .bpSi
  | 3#3 => .bpDi
  | 4#3 => .si
  | 5#3 => .di
  | 6#3 => .bp
  | 7#3 => .bx

/-- The rm field of an effective-address base (R105). -/
def EaBase.index : EaBase → BitVec 3
  | .bxSi => 0
  | .bxDi => 1
  | .bpSi => 2
  | .bpDi => 3
  | .si => 4
  | .di => 5
  | .bp => 6
  | .bx => 7

/-- ModRM field mod, bits 7:6 (R86). -/
def modField (m : Byte) : BitVec 2 := m.extractLsb' 6 2

/-- ModRM field reg, bits 5:3 (R86). -/
def regField (m : Byte) : BitVec 3 := m.extractLsb' 3 3

/-- ModRM field rm, bits 2:0 (R86). -/
def rmField (m : Byte) : BitVec 3 := m.extractLsb' 0 3

/-- The ModRM byte of its three fields (R86). -/
def modRmByte (mod : BitVec 2) (reg rm : BitVec 3) : Byte := mod ++ reg ++ rm

/-- Register index in the opcode byte, bits 2:0 (R84). -/
def opcodeReg (opc : Byte) : GReg := GReg.ofIndex (opc.extractLsb' 0 3)

/-- The width bit of a row: bit 3 where R is declared, else bit 0; 0 where W is not declared (R84, R85). -/
def Desc.widthBit (d : Desc) (opc : Byte) : Bool :=
  d.width && (if d.regInOpcode then opc.getLsbD 3 else opc.getLsbD 0)

/-- The direction bit of a row: bit 1; 0 where R is declared or D is not (R84, R85). -/
def Desc.directionBit (d : Desc) (opc : Byte) : Bool :=
  d.direction && !d.regInOpcode && opc.getLsbD 1

/-! ### The opcode table (R83, R95 to R98) -/

/-- A row of format MODRM, shape D W M (R91). -/
def rowModRM (byte : Byte) : Desc := ⟨byte, .move, 2, true, true, false, true, false, false, false⟩
/-- A row of format SEGMODRM, shape D M S (R92). -/
def rowSegModRM (byte : Byte) : Desc := ⟨byte, .move, 2, true, false, false, true, true, false, false⟩
/-- A row of format DIRECT, shape D W A (R93). -/
def rowDirect (byte : Byte) : Desc := ⟨byte, .move, 3, true, true, false, false, false, false, true⟩
/-- A row of format REGIMM, shape W R I (R90), with its base size. -/
def rowRegImm (byte : Byte) (size : Nat) : Desc := ⟨byte, .move, size, false, true, true, false, false, true, false⟩
/-- A row of format MODRM_IMM, shape D W M I (R94), with its base size. -/
def rowModRMImm (byte : Byte) (size : Nat) : Desc := ⟨byte, .move, size, true, true, false, true, false, true, false⟩
/-- A row of format NONE (R89). -/
def rowNone (byte : Byte) : Desc := ⟨byte, .halt, 1, false, false, false, false, false, false, false⟩

/-- The default opcode table `P_TABLE`, 29 rows (R95, D1). -/
def defaultTable : List Desc :=
  [rowModRM 0x88, rowModRM 0x89, rowModRM 0x8A, rowModRM 0x8B, rowSegModRM 0x8C, rowSegModRM 0x8E,
   rowDirect 0xA0, rowDirect 0xA1, rowDirect 0xA2, rowDirect 0xA3] ++
  [rowRegImm 0xB0 2, rowRegImm 0xB1 2, rowRegImm 0xB2 2, rowRegImm 0xB3 2,
   rowRegImm 0xB4 2, rowRegImm 0xB5 2, rowRegImm 0xB6 2, rowRegImm 0xB7 2] ++
  [rowRegImm 0xB8 3, rowRegImm 0xB9 3, rowRegImm 0xBA 3, rowRegImm 0xBB 3,
   rowRegImm 0xBC 3, rowRegImm 0xBD 3, rowRegImm 0xBE 3, rowRegImm 0xBF 3] ++
  [rowModRMImm 0xC6 3, rowModRMImm 0xC7 4, rowNone 0xF4]

/-- The default parameters (R10). -/
def defaultParams : Params :=
  { table := defaultTable, byteRows := true, eaSeg := .unsegmented, eaWrap16 := false, ipWrap16 := false }

/-- A row the table keeps under `P_BYTE_ROWS` (R96): with `false`, rows that declare W and whose width bit is clear go. -/
def Desc.keptBy (byteRows : Bool) (d : Desc) : Bool := byteRows || !d.width || d.widthBit d.byte

/-- Lookup by exact byte match (R88), in the table as `P_BYTE_ROWS` leaves it (R96). -/
def Params.lookup (p : Params) (opc : Byte) : Option Desc :=
  p.table.find? fun d => d.byte == opc && d.keptBy p.byteRows

/-- The default table's row for an opcode byte (R95). -/
def defaultRow (opc : Byte) : Option Desc := defaultTable.find? fun d => d.byte == opc

/-- Canonical size of a row: the size with no displacement (R98); `none` for a shape outside R97 item 2. -/
def Desc.canonicalSize (d : Desc) : Option Nat :=
  match d.kind, d.direction, d.width, d.regInOpcode, d.modRM, d.segModRM, d.immediate, d.directAddress with
  | .halt, false, false, false, false, false, false, false => some 1
  | .move, true, true, false, true, false, false, false => some 2
  | .move, true, false, false, true, true, false, false => some 2
  | .move, true, true, false, true, true, false, false => some 2
  | .move, true, true, false, false, false, false, true => some 3
  | .move, false, true, true, false, false, true, false => some (if d.widthBit d.byte then 3 else 2)
  | .move, true, true, false, true, false, true, false => some (if d.widthBit d.byte then 4 else 3)
  | _, _, _, _, _, _, _, _ => none

/-- The row's flag set is one of the shapes the decoder has a path for (R97 item 2). -/
def Desc.shapeOk (d : Desc) : Bool := d.canonicalSize.isSome

/-- Every byte has at most one row (R97 item 1). -/
def bytesDistinct : List Desc → Bool
  | [] => true
  | d :: ds => ds.all (fun e => e.byte != d.byte) && bytesDistinct ds

/-- Table well-formedness (R97): distinct bytes, known shapes, base size equal to the canonical size. -/
def tableOk (t : List Desc) : Bool :=
  bytesDistinct t && t.all fun d => d.canonicalSize == some d.baseSize

/-! ### The decoder on a list of bytes -/

/-- Why a list of bytes is no instruction: it ends too early; its first byte has no row in the default table (R123); its
ModRM byte is one the row refuses (R124). -/
inductive DecodeError where
  | truncated
  | unrecognized (opcode : Byte)
  | unsupported (opcode modrm : Byte)
  deriving DecidableEq, Repr

/-- What decoding answers: the instruction and the bytes after it. -/
abbrev DecodeResult := Except DecodeError (Instr × List Byte)

/-- A one-byte immediate, then the rest (R117). -/
def takeByte (bs : List Byte) (k : Byte → List Byte → DecodeResult) : DecodeResult :=
  match bs with
  | b :: rest => k b rest
  | [] => .error .truncated

/-- A two-byte little-endian field, then the rest (R59, R106, R108, R117, R118). -/
def takeWord (bs : List Byte) (k : Word → List Byte → DecodeResult) : DecodeResult :=
  match bs with
  | lo :: hi :: rest => k (le16 lo hi) rest
  | [_] => .error .truncated
  | [] => .error .truncated

/-- The ModRM side of mod and rm with its displacement bytes (R105 to R109). -/
def takeRm (mod : BitVec 2) (rm : BitVec 3) (bs : List Byte) (k : RmOp → List Byte → DecodeResult) : DecodeResult :=
  match mod with
  | 0#2 => if rm = 6#3 then takeWord bs fun a rest => k (.direct a) rest else k (.base (EaBase.ofIndex rm)) bs
  | 1#2 => takeByte bs fun d rest => k (.disp8 (EaBase.ofIndex rm) d) rest
  | 2#2 => takeWord bs fun d rest => k (.disp16 (EaBase.ofIndex rm) d) rest
  | 3#2 => k (.reg (GReg.ofIndex rm)) bs

/-- Format MODRM (R91): the ModRM byte, the displacement. -/
def decodeModRM (mk : GReg → RmOp → Instr) (bs : List Byte) : DecodeResult :=
  takeByte bs fun m rest =>
    takeRm (modField m) (rmField m) rest fun rm rest => .ok (mk (GReg.ofIndex (regField m)) rm, rest)

/-- Format SEGMODRM (R92, R115): mod must be 3 and rm name a segment register. -/
def decodeSegModRM (opc : Byte) (mk : BitVec 3 → SReg → Instr) (bs : List Byte) : DecodeResult :=
  takeByte bs fun m rest =>
    if modField m = 3#2 then
      match SReg.ofIndex? (rmField m) with
      | some r => .ok (mk (regField m) r, rest)
      | none => .error (.unsupported opc m)
    else .error (.unsupported opc m)

/-- Format DIRECT (R93, R118). -/
def decodeDirect (mk : Word → Instr) (bs : List Byte) : DecodeResult :=
  takeWord bs fun a rest => .ok (mk a, rest)

/-- Format REGIMM with w = 0 (R90, R117). -/
def decodeImm8 (mk : Byte → Instr) (bs : List Byte) : DecodeResult :=
  takeByte bs fun v rest => .ok (mk v, rest)

/-- Format REGIMM with w = 1 (R90, R117). -/
def decodeImm16 (mk : Word → Instr) (bs : List Byte) : DecodeResult :=
  takeWord bs fun v rest => .ok (mk v, rest)

/-- Format MODRM_IMM with w = 0 (R94, R114): reg must be 0, checked before any displacement byte. -/
def decodeRmImm8 (opc : Byte) (mk : RmOp → Byte → Instr) (bs : List Byte) : DecodeResult :=
  takeByte bs fun m rest =>
    if regField m = 0#3 then
      takeRm (modField m) (rmField m) rest fun rm rest => takeByte rest fun v rest => .ok (mk rm v, rest)
    else .error (.unsupported opc m)

/-- Format MODRM_IMM with w = 1 (R94, R114). -/
def decodeRmImm16 (opc : Byte) (mk : RmOp → Word → Instr) (bs : List Byte) : DecodeResult :=
  takeByte bs fun m rest =>
    if regField m = 0#3 then
      takeRm (modField m) (rmField m) rest fun rm rest => takeWord rest fun v rest => .ok (mk rm v, rest)
    else .error (.unsupported opc m)

/-- What follows the opcode byte, by exact byte match over the 29 rows of R95. -/
def decodeAfter (opc : Byte) (bs : List Byte) : DecodeResult :=
  match opc with
  | 0x88#8 => decodeModRM .movbRegRm bs
  | 0x89#8 => decodeModRM .movRegRm bs
  | 0x8A#8 => decodeModRM (fun reg rm => .movbRmReg rm reg) bs
  | 0x8B#8 => decodeModRM (fun reg rm => .movRmReg rm reg) bs
  | 0x8C#8 => decodeSegModRM opc .movGprSeg bs
  | 0x8E#8 => decodeSegModRM opc .movSegGpr bs
  | 0xA0#8 => decodeDirect .movbAxMem bs
  | 0xA1#8 => decodeDirect .movAxMem bs
  | 0xA2#8 => decodeDirect .movbMemAx bs
  | 0xA3#8 => decodeDirect .movMemAx bs
  | 0xB0#8 => decodeImm8 .movbAxImm8 bs
  | 0xB1#8 => decodeImm8 .movbCxImm8 bs
  | 0xB2#8 => decodeImm8 .movbDxImm8 bs
  | 0xB3#8 => decodeImm8 .movbBxImm8 bs
  | 0xB4#8 => decodeImm8 .movbSpImm8 bs
  | 0xB5#8 => decodeImm8 .movbBpImm8 bs
  | 0xB6#8 => decodeImm8 .movbSiImm8 bs
  | 0xB7#8 => decodeImm8 .movbDiImm8 bs
  | 0xB8#8 => decodeImm16 .movAxImm16 bs
  | 0xB9#8 => decodeImm16 .movCxImm16 bs
  | 0xBA#8 => decodeImm16 .movDxImm16 bs
  | 0xBB#8 => decodeImm16 .movBxImm16 bs
  | 0xBC#8 => decodeImm16 .movSpImm16 bs
  | 0xBD#8 => decodeImm16 .movBpImm16 bs
  | 0xBE#8 => decodeImm16 .movSiImm16 bs
  | 0xBF#8 => decodeImm16 .movDiImm16 bs
  | 0xC6#8 => decodeRmImm8 opc .movbRmImm8 bs
  | 0xC7#8 => decodeRmImm16 opc .movRmImm16 bs
  | 0xF4#8 => .ok (.hlt, bs)
  | _ => .error (.unrecognized opc)

/-- The decoder (R100 to R119) on a list of bytes: total, answering the instruction and the bytes after it. -/
def decode : List Byte → DecodeResult
  | [] => .error .truncated
  | opc :: bs => decodeAfter opc bs

/-! ### The encoder, from the formats R89 to R94 -/

/-- A two-byte field, low byte first (R59). -/
def encodeWord (w : Word) : List Byte := [fieldLo w, fieldHi w]

/-- The ModRM byte of a side with a given reg field, then its displacement or direct address (R91). -/
def RmOp.encode (reg : BitVec 3) : RmOp → List Byte
  | .reg r => [modRmByte 3 reg r.index]
  | .direct a => modRmByte 0 reg 6 :: encodeWord a
  | .base b => [modRmByte 0 reg b.index]
  | .disp8 b d => [modRmByte 1 reg b.index, d]
  | .disp16 b d => modRmByte 2 reg b.index :: encodeWord d

/-- The opcode byte of an instruction (R95). -/
def Instr.opcode : Instr → Byte
  | .movbRegRm _ _ => 0x88
  | .movRegRm _ _ => 0x89
  | .movbRmReg _ _ => 0x8A
  | .movRmReg _ _ => 0x8B
  | .movGprSeg _ _ => 0x8C
  | .movSegGpr _ _ => 0x8E
  | .movbAxMem _ => 0xA0
  | .movAxMem _ => 0xA1
  | .movbMemAx _ => 0xA2
  | .movMemAx _ => 0xA3
  | .movbAxImm8 _ => 0xB0
  | .movbCxImm8 _ => 0xB1
  | .movbDxImm8 _ => 0xB2
  | .movbBxImm8 _ => 0xB3
  | .movbSpImm8 _ => 0xB4
  | .movbBpImm8 _ => 0xB5
  | .movbSiImm8 _ => 0xB6
  | .movbDiImm8 _ => 0xB7
  | .movAxImm16 _ => 0xB8
  | .movCxImm16 _ => 0xB9
  | .movDxImm16 _ => 0xBA
  | .movBxImm16 _ => 0xBB
  | .movSpImm16 _ => 0xBC
  | .movBpImm16 _ => 0xBD
  | .movSiImm16 _ => 0xBE
  | .movDiImm16 _ => 0xBF
  | .movbRmImm8 _ _ => 0xC6
  | .movRmImm16 _ _ => 0xC7
  | .hlt => 0xF4

/-- The bytes after the opcode byte (R89 to R94). -/
def Instr.operandBytes : Instr → List Byte
  | .movbRegRm reg rm => rm.encode reg.index
  | .movRegRm reg rm => rm.encode reg.index
  | .movbRmReg rm reg => rm.encode reg.index
  | .movRmReg rm reg => rm.encode reg.index
  | .movGprSeg ign rm => [modRmByte 3 ign rm.index]
  | .movSegGpr ign rm => [modRmByte 3 ign rm.index]
  | .movbAxMem addr => encodeWord addr
  | .movAxMem addr => encodeWord addr
  | .movbMemAx addr => encodeWord addr
  | .movMemAx addr => encodeWord addr
  | .movbAxImm8 imm => [imm]
  | .movbCxImm8 imm => [imm]
  | .movbDxImm8 imm => [imm]
  | .movbBxImm8 imm => [imm]
  | .movbSpImm8 imm => [imm]
  | .movbBpImm8 imm => [imm]
  | .movbSiImm8 imm => [imm]
  | .movbDiImm8 imm => [imm]
  | .movAxImm16 imm => encodeWord imm
  | .movCxImm16 imm => encodeWord imm
  | .movDxImm16 imm => encodeWord imm
  | .movBxImm16 imm => encodeWord imm
  | .movSpImm16 imm => encodeWord imm
  | .movBpImm16 imm => encodeWord imm
  | .movSiImm16 imm => encodeWord imm
  | .movDiImm16 imm => encodeWord imm
  | .movbRmImm8 rm imm => rm.encode 0 ++ [imm]
  | .movRmImm16 rm imm => rm.encode 0 ++ encodeWord imm
  | .hlt => []

/-- The bytes of an instruction: the opcode byte, then the rest in the order of R80. -/
def encode (i : Instr) : List Byte := i.opcode :: i.operandBytes

/-! ### Sizes (R120) -/

/-- `L(mod, rm)`: bytes of displacement or direct address (R120). -/
def RmOp.dispLen : RmOp → Nat
  | .reg _ => 0
  | .direct _ => 2
  | .base _ => 0
  | .disp8 _ _ => 1
  | .disp16 _ _ => 2

/-- The length of an instruction (R120). -/
def Instr.size : Instr → Nat
  | .movbRegRm _ rm => 2 + rm.dispLen
  | .movRegRm _ rm => 2 + rm.dispLen
  | .movbRmReg rm _ => 2 + rm.dispLen
  | .movRmReg rm _ => 2 + rm.dispLen
  | .movGprSeg _ _ => 2
  | .movSegGpr _ _ => 2
  | .movbAxMem _ => 3
  | .movAxMem _ => 3
  | .movbMemAx _ => 3
  | .movMemAx _ => 3
  | .movbAxImm8 _ => 2
  | .movbCxImm8 _ => 2
  | .movbDxImm8 _ => 2
  | .movbBxImm8 _ => 2
  | .movbSpImm8 _ => 2
  | .movbBpImm8 _ => 2
  | .movbSiImm8 _ => 2
  | .movbDiImm8 _ => 2
  | .movAxImm16 _ => 3
  | .movCxImm16 _ => 3
  | .movDxImm16 _ => 3
  | .movBxImm16 _ => 3
  | .movSpImm16 _ => 3
  | .movBpImm16 _ => 3
  | .movSiImm16 _ => 3
  | .movDiImm16 _ => 3
  | .movbRmImm8 rm _ => 3 + rm.dispLen
  | .movRmImm16 rm _ => 4 + rm.dispLen
  | .hlt => 1

/-! ### The host's word form -/

/-- Byte `k` of an instruction given as a number, byte 0 first. -/
def tableByte (w k : Nat) : Byte := BitVec.ofNat 8 (w >>> (8 * k))

/-- The bytes of an instruction whose first `nbits` bits are `w` and whose other bits are 0, up to the longest
instruction, 6 bytes (R11). -/
def tableBytes (nbits w : Nat) : List Byte :=
  let v := w % 2 ^ nbits
  [tableByte v 0, tableByte v 1, tableByte v 2, tableByte v 3, tableByte v 4, tableByte v 5]

/-- The instruction the decoder reads from those bytes; `none` where it refuses them (R123, R124). -/
def decodeTableWord (nbits w : Nat) : Option Instr :=
  match decode (tableBytes nbits w) with
  | .ok (i, _) => some i
  | .error _ => none

end Sys2Proof
end

