-- ==== Sys2Proof/Machine/State.lean ====
section
/-! DEFINITION. The state as plain data (R36): the two register files, the nine flags, the instruction pointer, memory, the
run state with the recorded error (R34, R225), and the parameters of the run (log 1). Then why a step can stop, and the
state after reset. Reads and writes go through Machine/Ops.lean. -/

namespace Sys2Proof.Machine

/-- The general register file: eight 16-bit cells (R20). -/
structure Gprs where
  ax : Word
  cx : Word
  dx : Word
  bx : Word
  sp : Word
  bp : Word
  si : Word
  di : Word
  deriving DecidableEq, Repr

/-- The segment register file: four 16-bit cells (R26). -/
structure Segs where
  es : Word
  cs : Word
  ss : Word
  ds : Word
  deriving DecidableEq, Repr

/-- The nine status flags, separate fields with no bit positions (R29): CF PF AF ZF SF TF IF DF OF. -/
structure Flags where
  carry     : Bool
  parity    : Bool
  auxCarry  : Bool
  zero      : Bool
  sign      : Bool
  trap      : Bool
  intEnable : Bool
  direction : Bool
  overflow  : Bool
  deriving DecidableEq, Repr

/-- The byte store (R50) in canonical form: cells by rising address, none equal to `Config.unlistedByte`. Its form is
`Memory.wf` of Machine/Ops.lean. -/
abbrev Memory := List Host.Cell

/-- A fatal error with its recorded context (R221 to R225). `cs` and `ip` are the code position of the instruction that
aborted. -/
inductive AbortError where
  /-- E1 (R221): the opcode byte has no table entry. -/
  | unrecognizedEncoding (opcode : Byte) (cs : Word) (ip : Nat)
  /-- E2 (R222): a ModRM form the decoder refuses. -/
  | unsupportedAddressingForm (opcode modrm : Byte) (cs : Word) (ip : Nat)
  /-- E3 (R223): a destination and source pair Move rejects. -/
  | invalidOperandCombination (opcode : Byte) (cs : Word) (ip : Nat) (op1 op2 : Option Operand)
  /-- E4 (R224): a byte access at a linear address at or above the capacity; `opcode` is there when the opcode byte was
  read (R225). -/
  | outOfRange (linear : Nat) (cs : Word) (ip : Nat) (opcode : Option Byte)
  deriving DecidableEq, Repr

/-- The run state (R34). Halted and Aborted are terminal (R140). -/
inductive RunState where
  | running
  | halted
  | aborted (err : AbortError)
  deriving DecidableEq, Repr

/-- The complete state (R36), and the parameters of the run, which no step changes (R10; log 1). The instruction pointer
is a natural number (R31). -/
structure State where
  gpr    : Gprs
  seg    : Segs
  flags  : Flags
  ip     : Nat
  mem    : Memory
  run    : RunState
  params : Params
  deriving DecidableEq, Repr

/-- Why a step stops with a fault. No constructor: every error of this hardware is an abort, whose state the spec gives
(R142, R220), so it is a next state with RUN = Aborted (log 2, log 12). Safe: nothing is stopped that the spec runs. -/
inductive Fault where
  deriving DecidableEq, Repr

/-- Why a step gives no meaning. -/
inductive Refusal where
  /-- Raised by an arm of `exec` whose instruction has no meaning yet (none is left). Safe. -/
  | notModelled (mnemonic : String)
  /-- Raised by `step` when the opcode byte's row in `P_TABLE` has a shape the decoder has no path for: "the model refuses
  the table" (R97; log 11). No launch gives such a table. Safe. -/
  | rowWithoutDecoderPath (byte : Byte)
  deriving DecidableEq, Repr

/-- The state after reset: the values the loader sets (R37, R251) with no image, every other register 0 and flag false
(DESIGN CHOICE, logs 4 to 6), memory with nothing listed (log 7), the default parameters (R10). -/
def State.reset : State :=
  { gpr := ⟨0, 0, 0, 0, 0, 0, 0, 0⟩
    seg := ⟨0, 0xF000, 0, 0⟩
    flags := ⟨false, false, false, false, false, false, false, false, false⟩
    ip := 0x0100
    mem := []
    run := .running
    params := defaultParams }

end Sys2Proof.Machine
end

