-- ==== Sys2Proof/Machine/Ops.lean ====
section
/-! DEFINITION. The named operations over the state: byte views (R22, R23), the register-file transactions (R38), the byte
store and its accessors (R50 to R57, R71), the instruction-pointer advance (R146), and taking an abort (R220). There is no
return from an exception beside it: the hardware has none (R231, R232). -/

namespace Sys2Proof.Machine

/-! ### Byte views of a register (R22, R23) -/

/-- `Hi(r) = r[15:8]` (R23). -/
def hi (r : Word) : Byte := r.extractLsb' 8 8

/-- `Lo(r) = r[7:0]` (R23). -/
def lo (r : Word) : Byte := r.extractLsb' 0 8

/-- `SetHi(r, b) = 256*b + r[7:0]` (R23). -/
def setHi (r : Word) (b : Byte) : Word := b ++ lo r

/-- `SetLo(r, b) = 256*r[15:8] + b` (R23). -/
def setLo (r : Word) (b : Byte) : Word := hi r ++ b

/-- `be16(b0, b1) = 256*b0 + b1`: a memory data word, the byte at the lower address most significant (R12, R54). -/
def be16 (b0 b1 : Byte) : Word := b0 ++ b1

/-! ### Register files (R20, R21, R26, R27, R38) -/

/-- Read a general register. -/
def Gprs.read (g : Gprs) : GReg → Word
  | .ax => g.ax
  | .cx => g.cx
  | .dx => g.dx
  | .bx => g.bx
  | .sp => g.sp
  | .bp => g.bp
  | .si => g.si
  | .di => g.di

/-- Write a general register. -/
def Gprs.write (g : Gprs) (r : GReg) (v : Word) : Gprs :=
  match r with
  | .ax => { g with ax := v }
  | .cx => { g with cx := v }
  | .dx => { g with dx := v }
  | .bx => { g with bx := v }
  | .sp => { g with sp := v }
  | .bp => { g with bp := v }
  | .si => { g with si := v }
  | .di => { g with di := v }

/-- Read a segment register. -/
def Segs.read (g : Segs) : SReg → Word
  | .es => g.es
  | .cs => g.cs
  | .ss => g.ss
  | .ds => g.ds

/-- Write a segment register. -/
def Segs.write (g : Segs) (r : SReg) (v : Word) : Segs :=
  match r with
  | .es => { g with es := v }
  | .cs => { g with cs := v }
  | .ss => { g with ss := v }
  | .ds => { g with ds := v }

/-- `read16(file, i)` (R38). -/
def State.readReg (s : State) : RegRef → Word
  | .gen r => s.gpr.read r
  | .seg r => s.seg.read r

/-- `write16(file, i, v)` (R38). -/
def State.writeReg (s : State) (r : RegRef) (v : Word) : State :=
  match r with
  | .gen r => { s with gpr := s.gpr.write r v }
  | .seg r => { s with seg := s.seg.write r v }

/-- `readHi(file, i)` (R38). -/
def State.readHi (s : State) (r : RegRef) : Byte := hi (s.readReg r)

/-- `readLo(file, i)` (R38). -/
def State.readLo (s : State) (r : RegRef) : Byte := lo (s.readReg r)

/-- `writeHi(file, i, b)` (R38). -/
def State.writeHi (s : State) (r : RegRef) (b : Byte) : State := s.writeReg r (setHi (s.readReg r) b)

/-- `writeLo(file, i, b)` (R38): the transaction the loader uses (R24, R251). -/
def State.writeLo (s : State) (r : RegRef) (b : Byte) : State := s.writeReg r (setLo (s.readReg r) b)

/-! ### The byte store (R50 to R53) -/

/-- The byte at an address: the first cell listed there, else `Config.unlistedByte`. -/
def Memory.read : Memory → Nat → Byte
  | [], _ => Config.unlistedByte
  | (x, v) :: m, a => if x = a then v else Memory.read m a

/-- The cells at other addresses. -/
def Memory.without (m : Memory) (a : Nat) : Memory := m.filter fun c => c.1 != a

/-- Put a cell before the first cell at a higher address. -/
def Memory.place : Memory → Nat → Byte → Memory
  | [], a, b => [(a, b)]
  | (x, v) :: m, a, b => if a < x then (a, b) :: (x, v) :: m else (x, v) :: Memory.place m a b

/-- Change exactly one cell (R53), keeping the canonical form: writing the unlisted byte removes the entry. -/
def Memory.write (m : Memory) (a : Nat) (b : Byte) : Memory :=
  if b = Config.unlistedByte then m.without a else (m.without a).place a b

/-- The cells are at rising addresses from `low` on, inside the capacity, none equal to the unlisted byte. -/
def Memory.wfFrom (low : Nat) : Memory → Bool
  | [] => true
  | (a, b) :: m => decide (low ≤ a) && decide (a < Config.cap) && (b != Config.unlistedByte) && Memory.wfFrom (a + 1) m

/-- The canonical form of memory: equal memories are equal lists. -/
def Memory.wf (m : Memory) : Bool := Memory.wfFrom 0 m

/-! ### Accessors (R52, R54, R57, R71)

A read answers the value, or the failing linear address as an error. A write answers the state it leaves and, if it was cut,
the failing linear address: a cut word write leaves its first byte written (R55). -/

/-- `get_byte(a)` (R52). -/
def State.getByte (s : State) (a : Nat) : Except Nat Byte :=
  if a < Config.cap then .ok (s.mem.read a) else .error a

/-- `set_byte(b, a)` (R52). -/
def State.setByte (s : State) (b : Byte) (a : Nat) : State × Option Nat :=
  if a < Config.cap then ({ s with mem := s.mem.write a b }, none) else (s, some a)

/-- `get_word(a)`: high byte first, both may fail (R54). -/
def State.getWord (s : State) (a : Nat) : Except Nat Word :=
  match s.getByte a with
  | .error e => .error e
  | .ok h =>
    match s.getByte (a + 1) with
    | .error e => .error e
    | .ok l => .ok (be16 h l)

/-- `set_word(v, a)`: the high byte at `a`, then the low byte at `a + 1` (R54, R55). -/
def State.setWord (s : State) (v : Word) (a : Nat) : State × Option Nat :=
  match s.setByte (hi v) a with
  | (s', some e) => (s', some e)
  | (s', none) => s'.setByte (lo v) (a + 1)

/-- `Lin(seg, off) = seg*16 + off`, with no truncation (R57, R58). -/
def lin (seg : Word) (off : Nat) : Nat := seg.toNat * 16 + off

/-- `get_byte` by segment and offset (R57, R71). -/
def State.getByteSO (s : State) (seg : Word) (off : Nat) : Except Nat Byte := s.getByte (lin seg off)

/-- `set_byte` by segment and offset (R57, R71). -/
def State.setByteSO (s : State) (b : Byte) (seg : Word) (off : Nat) : State × Option Nat := s.setByte b (lin seg off)

/-- `get_word` by segment and offset (R57, R71). -/
def State.getWordSO (s : State) (seg : Word) (off : Nat) : Except Nat Word := s.getWord (lin seg off)

/-- `set_word` by segment and offset (R57, R71). -/
def State.setWordSO (s : State) (v : Word) (seg : Word) (off : Nat) : State × Option Nat := s.setWord v (lin seg off)

/-! ### Code position and aborts -/

/-- An offset in the code segment: reduced mod 2^16 under `P_IP_WRAP16` (R102, R146). -/
def State.codeOffset (s : State) (off : Nat) : Nat := if s.params.ipWrap16 then off % 0x10000 else off

/-- `Advance(IP, size)` (R146). -/
def State.advance (s : State) (size : Nat) : State := { s with ip := s.codeOffset (s.ip + size) }

/-- Linear address of byte `k` of the instruction at CS:IP (R102). -/
def State.fetchAddr (s : State) (k : Nat) : Nat := lin s.seg.cs (s.codeOffset (s.ip + k))

/-- `raise Abort(kind, info)` (R220): RUN becomes Aborted, every change already made in the step stays made (R13). It is
all this hardware does on an exception: nothing is saved and control goes nowhere (R231). -/
def State.raise (s : State) (err : AbortError) : State := { s with run := .aborted err }

/-- The E4 error at a linear address, with the code position of this state (R224, R225). -/
def State.outOfRangeAt (s : State) (opcode : Option Byte) (linear : Nat) : AbortError :=
  .outOfRange linear s.seg.cs s.ip opcode

end Sys2Proof.Machine
end

