-- ==== Sys2Proof/Machine/Operands.lean ====
section
/-! DEFINITION. Operands: effective addresses and their linear addresses (R105 to R111), resolving a ModRM side, reading
and writing an operand (R144, R145), and the operand-combination check (R149). -/

namespace Sys2Proof.Machine

/-- `Base(rm)`: natural-number sums of register values (R105). -/
def State.eaBase (s : State) : EaBase → Nat
  | .bxSi => s.gpr.bx.toNat + s.gpr.si.toNat
  | .bxDi => s.gpr.bx.toNat + s.gpr.di.toNat
  | .bpSi => s.gpr.bp.toNat + s.gpr.si.toNat
  | .bpDi => s.gpr.bp.toNat + s.gpr.di.toNat
  | .si => s.gpr.si.toNat
  | .di => s.gpr.di.toNat
  | .bp => s.gpr.bp.toNat
  | .bx => s.gpr.bx.toNat

/-- An effective-address sum, reduced mod 2^16 under `P_EA_WRAP16` (R110). -/
def State.wrapEa (s : State) (ea : Nat) : Nat := if s.params.eaWrap16 then ea % 0x10000 else ea

/-- `EALinear(ea)` (R111): no segment by default, DS under `P_EA_SEG = DS`. -/
def State.eaLinear (s : State) (ea : Nat) : Nat :=
  match s.params.eaSeg with
  | .unsegmented => ea
  | .ds => lin s.seg.ds ea

/-- The operand a ModRM side names (R99 step 4): a register (R109), or memory at the linear address of a direct address
(R106), a base (R105), a base plus an unsigned byte (R107) or word (R108) displacement. -/
def State.resolve (s : State) : RmOp → Operand
  | .reg r => .reg (.gen r)
  | .direct a => .mem (s.eaLinear a.toNat)
  | .base b => .mem (s.eaLinear (s.wrapEa (s.eaBase b)))
  | .disp8 b d => .mem (s.eaLinear (s.wrapEa (s.eaBase b + d.toNat)))
  | .disp16 b d => .mem (s.eaLinear (s.wrapEa (s.eaBase b + d.toNat)))

/-- `ReadOperand` (R144); an error is the failing linear address. -/
def State.readOperand (s : State) : Operand → Except Nat Word
  | .reg r => .ok (s.readReg r)
  | .mem a => s.getWord a
  | .imm v => .ok v

/-- `WriteOperand` (R145). An immediate is never written: `movePair` rejects it first (R149). -/
def State.writeOperand (s : State) (op : Operand) (v : Word) : State × Option Nat :=
  match op with
  | .reg r => (s.writeReg r v, none)
  | .mem a => s.setWord v a
  | .imm _ => (s, none)

/-- The operand-combination check (R149): the allowed destination and source, `none` for a rejected pair. -/
def movePair : Option Operand → Option Operand → Option (Operand × Operand)
  | some (.reg d), some src => some (.reg d, src)
  | some (.mem a), some (.reg r) => some (.mem a, .reg r)
  | some (.mem a), some (.imm v) => some (.mem a, .imm v)
  | some (.mem _), some (.mem _) => none
  | some (.imm _), _ => none
  | none, _ => none
  | some (.reg _), none => none
  | some (.mem _), none => none

end Sys2Proof.Machine
end

