-- ==== Sys2Proof/Machine/Execute.lean ====
section
/-! DEFINITION. What a step does after decoding (R142): the Move contract (R149, R150), the halt transition (R142, R210),
the dispatch on the opcode kind (R143), each followed by the instruction-pointer advance on success (R146, R147). -/

namespace Sys2Proof.Machine

/-- ExecMove and the advance (R142, R150): check the pair, read 16 bits, write 16 bits, advance. A rejected pair changes
nothing; a read that fails changes nothing; a word write cut by the end of memory keeps its first byte (R55, R148). -/
def State.move (opc : Byte) (size : Nat) (op1 op2 : Option Operand) (s : State) : State :=
  match movePair op1 op2 with
  | none => s.raise (.invalidOperandCombination opc s.seg.cs s.ip op1 op2)
  | some (dst, src) =>
    match s.readOperand src with
    | .error a => s.raise (s.outOfRangeAt (some opc) a)
    | .ok v =>
      match s.writeOperand dst v with
      | (s', none) => s'.advance size
      | (s', some a) => s'.raise (s.outOfRangeAt (some opc) a)

/-- The halt transition and the advance (R142, R147). -/
def State.halt (size : Nat) (s : State) : State := { s with run := .halted }.advance size

/-- Dispatch on the opcode kind alone (R143). -/
def State.dispatch (opc : Byte) (d : Decoded) (s : State) : State :=
  match d.kind with
  | .move => s.move opc d.size d.op1 d.op2
  | .halt => s.halt d.size

end Sys2Proof.Machine
end

