-- ==== Sys2Proof/Machine/Halt.lean ====
section
/-! DEFINITION. HLT (R210): RUN becomes Halted and IP moves one past the opcode byte (R147). -/

namespace Sys2Proof.Machine

/-- HLT, 0xF4 (R210). -/
def execHlt (s : State) : Host.Outcome State Fault Refusal :=
  .next (s.halt 1)

end Sys2Proof.Machine
end

