-- ==== Sys2Proof/Machine/MovDirect.lean ====
section
/-! DEFINITION. Format DIRECT: the accumulator AX and a direct address (R118, R178 to R181). Every row moves 16 bits. -/

namespace Sys2Proof.Machine

/-- MOV.B AX, [addr], 0xA0 (R178). -/
def execMovbAxMem (addr : Word) (s : State) : Host.Outcome State Fault Refusal :=
  .next (s.move 0xA0 3 (some (.reg (.gen .ax))) (some (.mem (s.eaLinear addr.toNat))))

/-- MOV AX, [addr], 0xA1 (R179). -/
def execMovAxMem (addr : Word) (s : State) : Host.Outcome State Fault Refusal :=
  .next (s.move 0xA1 3 (some (.reg (.gen .ax))) (some (.mem (s.eaLinear addr.toNat))))

/-- MOV.B [addr], AX, 0xA2 (R180). -/
def execMovbMemAx (addr : Word) (s : State) : Host.Outcome State Fault Refusal :=
  .next (s.move 0xA2 3 (some (.mem (s.eaLinear addr.toNat))) (some (.reg (.gen .ax))))

/-- MOV [addr], AX, 0xA3 (R181). -/
def execMovMemAx (addr : Word) (s : State) : Host.Outcome State Fault Refusal :=
  .next (s.move 0xA3 3 (some (.mem (s.eaLinear addr.toNat))) (some (.reg (.gen .ax))))

end Sys2Proof.Machine
end

