-- ==== Sys2Proof/Machine/MovModRM.lean ====
section
/-! DEFINITION. Format MODRM: a general register and a register-or-memory operand (R172 to R175). d = 0 makes the register
of the reg field the destination, d = 1 the ModRM side (R112, R113). Every row moves 16 bits (R170). -/

namespace Sys2Proof.Machine

/-- MOV.B reg, r/m, 0x88 (R172). -/
def execMovbRegRm (reg : GReg) (rm : RmOp) (s : State) : Host.Outcome State Fault Refusal :=
  .next (s.move 0x88 (2 + rm.dispLen) (some (.reg (.gen reg))) (some (s.resolve rm)))

/-- MOV reg, r/m, 0x89 (R173). -/
def execMovRegRm (reg : GReg) (rm : RmOp) (s : State) : Host.Outcome State Fault Refusal :=
  .next (s.move 0x89 (2 + rm.dispLen) (some (.reg (.gen reg))) (some (s.resolve rm)))

/-- MOV.B r/m, reg, 0x8A (R174). -/
def execMovbRmReg (rm : RmOp) (reg : GReg) (s : State) : Host.Outcome State Fault Refusal :=
  .next (s.move 0x8A (2 + rm.dispLen) (some (s.resolve rm)) (some (.reg (.gen reg))))

/-- MOV r/m, reg, 0x8B (R175). -/
def execMovRmReg (rm : RmOp) (reg : GReg) (s : State) : Host.Outcome State Fault Refusal :=
  .next (s.move 0x8B (2 + rm.dispLen) (some (s.resolve rm)) (some (.reg (.gen reg))))

end Sys2Proof.Machine
end

