-- ==== Sys2Proof/Machine/MovRegImm.lean ====
section
/-! DEFINITION. Format REGIMM: a register named in the opcode and an immediate (R116, R117). A one-byte immediate is
zero-extended and the whole register is written (R170, R182 to R189); a two-byte immediate is R190 to R197. -/

namespace Sys2Proof.Machine

/-- MOV.B AX, imm8, 0xB0 (R182). -/
def execMovbAxImm8 (imm : Byte) (s : State) : Host.Outcome State Fault Refusal :=
  .next (s.move 0xB0 2 (some (.reg (.gen .ax))) (some (.imm (zext16 imm))))

/-- MOV.B CX, imm8, 0xB1 (R183). -/
def execMovbCxImm8 (imm : Byte) (s : State) : Host.Outcome State Fault Refusal :=
  .next (s.move 0xB1 2 (some (.reg (.gen .cx))) (some (.imm (zext16 imm))))

/-- MOV.B DX, imm8, 0xB2 (R184). -/
def execMovbDxImm8 (imm : Byte) (s : State) : Host.Outcome State Fault Refusal :=
  .next (s.move 0xB2 2 (some (.reg (.gen .dx))) (some (.imm (zext16 imm))))

/-- MOV.B BX, imm8, 0xB3 (R185). -/
def execMovbBxImm8 (imm : Byte) (s : State) : Host.Outcome State Fault Refusal :=
  .next (s.move 0xB3 2 (some (.reg (.gen .bx))) (some (.imm (zext16 imm))))

/-- MOV.B SP, imm8, 0xB4 (R186). -/
def execMovbSpImm8 (imm : Byte) (s : State) : Host.Outcome State Fault Refusal :=
  .next (s.move 0xB4 2 (some (.reg (.gen .sp))) (some (.imm (zext16 imm))))

/-- MOV.B BP, imm8, 0xB5 (R187). -/
def execMovbBpImm8 (imm : Byte) (s : State) : Host.Outcome State Fault Refusal :=
  .next (s.move 0xB5 2 (some (.reg (.gen .bp))) (some (.imm (zext16 imm))))

/-- MOV.B SI, imm8, 0xB6 (R188). -/
def execMovbSiImm8 (imm : Byte) (s : State) : Host.Outcome State Fault Refusal :=
  .next (s.move 0xB6 2 (some (.reg (.gen .si))) (some (.imm (zext16 imm))))

/-- MOV.B DI, imm8, 0xB7 (R189). -/
def execMovbDiImm8 (imm : Byte) (s : State) : Host.Outcome State Fault Refusal :=
  .next (s.move 0xB7 2 (some (.reg (.gen .di))) (some (.imm (zext16 imm))))

/-- MOV AX, imm16, 0xB8 (R190). -/
def execMovAxImm16 (imm : Word) (s : State) : Host.Outcome State Fault Refusal :=
  .next (s.move 0xB8 3 (some (.reg (.gen .ax))) (some (.imm imm)))

/-- MOV CX, imm16, 0xB9 (R191). -/
def execMovCxImm16 (imm : Word) (s : State) : Host.Outcome State Fault Refusal :=
  .next (s.move 0xB9 3 (some (.reg (.gen .cx))) (some (.imm imm)))

/-- MOV DX, imm16, 0xBA (R192). -/
def execMovDxImm16 (imm : Word) (s : State) : Host.Outcome State Fault Refusal :=
  .next (s.move 0xBA 3 (some (.reg (.gen .dx))) (some (.imm imm)))

/-- MOV BX, imm16, 0xBB (R193). -/
def execMovBxImm16 (imm : Word) (s : State) : Host.Outcome State Fault Refusal :=
  .next (s.move 0xBB 3 (some (.reg (.gen .bx))) (some (.imm imm)))

/-- MOV SP, imm16, 0xBC (R194). -/
def execMovSpImm16 (imm : Word) (s : State) : Host.Outcome State Fault Refusal :=
  .next (s.move 0xBC 3 (some (.reg (.gen .sp))) (some (.imm imm)))

/-- MOV BP, imm16, 0xBD (R195). -/
def execMovBpImm16 (imm : Word) (s : State) : Host.Outcome State Fault Refusal :=
  .next (s.move 0xBD 3 (some (.reg (.gen .bp))) (some (.imm imm)))

/-- MOV SI, imm16, 0xBE (R196). -/
def execMovSiImm16 (imm : Word) (s : State) : Host.Outcome State Fault Refusal :=
  .next (s.move 0xBE 3 (some (.reg (.gen .si))) (some (.imm imm)))

/-- MOV DI, imm16, 0xBF (R197). -/
def execMovDiImm16 (imm : Word) (s : State) : Host.Outcome State Fault Refusal :=
  .next (s.move 0xBF 3 (some (.reg (.gen .di))) (some (.imm imm)))

end Sys2Proof.Machine
end

