-- ==== Sys2Proof/Machine/MovRmImm.lean ====
section
/-! DEFINITION. Format MODRM_IMM: a register-or-memory destination and an immediate (R114, R117, R198, R199). A full word
is written. -/

namespace Sys2Proof.Machine

/-- MOV.B r/m, imm8, 0xC6 (R198). -/
def execMovbRmImm8 (rm : RmOp) (imm : Byte) (s : State) : Host.Outcome State Fault Refusal :=
  .next (s.move 0xC6 (3 + rm.dispLen) (some (s.resolve rm)) (some (.imm (zext16 imm))))

/-- MOV r/m, imm16, 0xC7 (R199). -/
def execMovRmImm16 (rm : RmOp) (imm : Word) (s : State) : Host.Outcome State Fault Refusal :=
  .next (s.move 0xC7 (4 + rm.dispLen) (some (s.resolve rm)) (some (.imm imm)))

end Sys2Proof.Machine
end

