-- ==== Sys2Proof/Machine/MovSeg.lean ====
section
/-! DEFINITION. Format SEGMODRM: a segment register and the general register the same rm field names (R115, R176, R177).
The reg field has no effect. -/

namespace Sys2Proof.Machine

/-- MOV GPR[rm], SEG[rm], 0x8C (R176): AX <- ES, CX <- CS, DX <- SS, BX <- DS. -/
def execMovGprSeg (rm : SReg) (s : State) : Host.Outcome State Fault Refusal :=
  .next (s.move 0x8C 2 (some (.reg (.gen rm.paired))) (some (.reg (.seg rm))))

/-- MOV SEG[rm], GPR[rm], 0x8E (R177): ES <- AX, CS <- CX, SS <- DX, DS <- BX. A new CS is used at the next fetch (R155). -/
def execMovSegGpr (rm : SReg) (s : State) : Host.Outcome State Fault Refusal :=
  .next (s.move 0x8E 2 (some (.reg (.seg rm))) (some (.reg (.gen rm.paired))))

end Sys2Proof.Machine
end

