-- ==== Sys2Proof/Machine/Dispatch.lean ====
section
/-! DEFINITION. The meaning of each instruction, one arm per constructor, one arm per row of the opcode table (R95). -/

namespace Sys2Proof.Machine

def exec (i : Instr) (s : State) : Host.Outcome State Fault Refusal :=
  match i with
  | .movbRegRm reg rm => Sys2Proof.Machine.execMovbRegRm reg rm s
  | .movRegRm reg rm => Sys2Proof.Machine.execMovRegRm reg rm s
  | .movbRmReg rm reg => Sys2Proof.Machine.execMovbRmReg rm reg s
  | .movRmReg rm reg => Sys2Proof.Machine.execMovRmReg rm reg s
  | .movGprSeg _ rm => Sys2Proof.Machine.execMovGprSeg rm s
  | .movSegGpr _ rm => Sys2Proof.Machine.execMovSegGpr rm s
  | .movbAxMem addr => Sys2Proof.Machine.execMovbAxMem addr s
  | .movAxMem addr => Sys2Proof.Machine.execMovAxMem addr s
  | .movbMemAx addr => Sys2Proof.Machine.execMovbMemAx addr s
  | .movMemAx addr => Sys2Proof.Machine.execMovMemAx addr s
  | .movbAxImm8 imm => Sys2Proof.Machine.execMovbAxImm8 imm s
  | .movbCxImm8 imm => Sys2Proof.Machine.execMovbCxImm8 imm s
  | .movbDxImm8 imm => Sys2Proof.Machine.execMovbDxImm8 imm s
  | .movbBxImm8 imm => Sys2Proof.Machine.execMovbBxImm8 imm s
  | .movbSpImm8 imm => Sys2Proof.Machine.execMovbSpImm8 imm s
  | .movbBpImm8 imm => Sys2Proof.Machine.execMovbBpImm8 imm s
  | .movbSiImm8 imm => Sys2Proof.Machine.execMovbSiImm8 imm s
  | .movbDiImm8 imm => Sys2Proof.Machine.execMovbDiImm8 imm s
  | .movAxImm16 imm => Sys2Proof.Machine.execMovAxImm16 imm s
  | .movCxImm16 imm => Sys2Proof.Machine.execMovCxImm16 imm s
  | .movDxImm16 imm => Sys2Proof.Machine.execMovDxImm16 imm s
  | .movBxImm16 imm => Sys2Proof.Machine.execMovBxImm16 imm s
  | .movSpImm16 imm => Sys2Proof.Machine.execMovSpImm16 imm s
  | .movBpImm16 imm => Sys2Proof.Machine.execMovBpImm16 imm s
  | .movSiImm16 imm => Sys2Proof.Machine.execMovSiImm16 imm s
  | .movDiImm16 imm => Sys2Proof.Machine.execMovDiImm16 imm s
  | .movbRmImm8 rm imm => Sys2Proof.Machine.execMovbRmImm8 rm imm s
  | .movRmImm16 rm imm => Sys2Proof.Machine.execMovRmImm16 rm imm s
  | .hlt => Sys2Proof.Machine.execHlt s

end Sys2Proof.Machine
end

