-- ==== Sys2Proof/Machine/Engine.lean ====
section
/-! DEFINITION. The table-driven algorithm R99 over the machine state, for any row of `P_TABLE`, and the step R142 built
on it. `step` (Machine/Step.lean) runs a row of the default table through the instruction's own meaning, and any other row
through `State.runRow` (R130; log 11). -/

namespace Sys2Proof.Machine

/-- `Fetch(k)` (R102): byte `k` of the instruction; out of range raises E4 (R51), with the opcode byte if it was read. -/
def State.fetch (s : State) (opcode : Option Byte) (k : Nat) : Except AbortError Byte :=
  match s.getByte (s.fetchAddr k) with
  | .ok b => .ok b
  | .error a => .error (s.outOfRangeAt opcode a)

/-- `le16(Fetch(k), Fetch(k+1))` (R99). -/
def State.fetchField (s : State) (opc : Byte) (k : Nat) : Except AbortError Word :=
  match s.fetch (some opc) k with
  | .error e => .error e
  | .ok l =>
    match s.fetch (some opc) (k + 1) with
    | .error e => .error e
    | .ok h => .ok (le16 l h)

/-- Step 1 (R100): the opcode byte and its row; a miss raises E1 (R221). -/
def State.fetchOpcode (s : State) : Except AbortError (Byte × Desc) :=
  match s.fetch none 0 with
  | .error e => .error e
  | .ok opc =>
    match s.params.lookup opc with
    | none => .error (.unrecognizedEncoding opc s.seg.cs s.ip)
    | some d => .ok (opc, d)

/-- Step 2 (R101): read three following bytes and throw them away; one out of range raises E4 (D11). -/
def State.readAhead (s : State) (opc : Byte) : Except AbortError Unit :=
  match s.fetch (some opc) 1 with
  | .error e => .error e
  | .ok _ =>
    match s.fetch (some opc) 2 with
    | .error e => .error e
    | .ok _ =>
      match s.fetch (some opc) 3 with
      | .error e => .error e
      | .ok _ => .ok ()

/-- The slots of a decode in progress: `op1`, `op2`, and `n`, the offset of the next byte not yet consumed (R102). -/
structure Slots where
  op1 : Option Operand
  op2 : Option Operand
  n   : Nat
  deriving DecidableEq, Repr

/-- The ModRM side of a row without S (R99 step 4, R105 to R111): the operand and the next offset. -/
def State.fetchSide (s : State) (opc : Byte) (mod : BitVec 2) (rm : BitVec 3) (n : Nat) :
    Except AbortError (Operand × Nat) :=
  if mod = 3#2 then .ok (.reg (.gen (GReg.ofIndex rm)), n)
  else if mod = 0#2 ∧ rm = 6#3 then
    match s.fetchField opc n with
    | .error e => .error e
    | .ok a => .ok (.mem (s.eaLinear a.toNat), n + 2)
  else if mod = 1#2 then
    match s.fetch (some opc) n with
    | .error e => .error e
    | .ok d => .ok (.mem (s.eaLinear (s.wrapEa (s.eaBase (EaBase.ofIndex rm) + (zext16 d).toNat))), n + 1)
  else if mod = 2#2 then
    match s.fetchField opc n with
    | .error e => .error e
    | .ok d => .ok (.mem (s.eaLinear (s.wrapEa (s.eaBase (EaBase.ofIndex rm) + d.toNat))), n + 2)
  else .ok (.mem (s.eaLinear (s.wrapEa (s.eaBase (EaBase.ofIndex rm)))), n)

/-- The slot rule (R112): the ModRM side is the destination when the direction bit is set, else the source. -/
def sideSlots (toSide : Bool) (side other : Option Operand) (n : Nat) : Slots :=
  if toSide then ⟨side, other, n⟩ else ⟨other, side, n⟩

/-- Step 4 (R104 to R115). -/
def State.stepModRM (s : State) (d : Desc) (opc : Byte) (x : Slots) : Except AbortError Slots :=
  if d.modRM then
    match s.fetch (some opc) x.n with
    | .error e => .error e
    | .ok m =>
      if d.segModRM then
        match SReg.ofIndex? (rmField m) with
        | none => .error (.unsupportedAddressingForm opc m s.seg.cs s.ip)
        | some r =>
          if modField m = 3#2 then
            .ok (sideSlots (d.directionBit opc) (some (.reg (.seg r)))
              (some (.reg (.gen (GReg.ofIndex (rmField m))))) (x.n + 1))
          else .error (.unsupportedAddressingForm opc m s.seg.cs s.ip)
      else if d.immediate = true ∧ regField m ≠ 0#3 then .error (.unsupportedAddressingForm opc m s.seg.cs s.ip)
      else
        match s.fetchSide opc (modField m) (rmField m) (x.n + 1) with
        | .error e => .error e
        | .ok (side, n) =>
          .ok (sideSlots (d.directionBit opc) (some side)
            (if d.immediate then none else some (.reg (.gen (GReg.ofIndex (regField m))))) n)
  else .ok x

/-- Step 5 (R116): for R rows the direction is 0 (R84), so the register named in the opcode is always `op1`. -/
def stepRegister (d : Desc) (opc : Byte) (x : Slots) : Slots :=
  if d.regInOpcode then { x with op1 := some (.reg (.gen (opcodeReg opc))) } else x

/-- The immediate as `op1` if that slot is still empty, else as `op2` (R117). -/
def fillSlot (x : Slots) (v : Word) (n : Nat) : Slots :=
  if x.op1 = none then ⟨some (.imm v), x.op2, n⟩ else ⟨x.op1, some (.imm v), n⟩

/-- Step 6 (R117): the immediate goes into the slot that is still empty. -/
def State.stepImmediate (s : State) (d : Desc) (opc : Byte) (x : Slots) : Except AbortError Slots :=
  if d.immediate && d.width then
    if d.widthBit opc then
      match s.fetchField opc x.n with
      | .error e => .error e
      | .ok v => .ok (fillSlot x v (x.n + 2))
    else
      match s.fetch (some opc) x.n with
      | .error e => .error e
      | .ok b => .ok (fillSlot x (zext16 b) (x.n + 1))
  else .ok x

/-- Step 7 (R118): a direct address and the accumulator, AX. -/
def State.stepDirect (s : State) (d : Desc) (opc : Byte) (x : Slots) : Except AbortError Slots :=
  if d.directAddress then
    match s.fetchField opc x.n with
    | .error e => .error e
    | .ok a =>
      .ok (sideSlots (d.directionBit opc) (some (.mem (s.eaLinear a.toNat))) (some (.reg (.gen .ax))) (x.n + 2))
  else .ok x

/-- Steps 3 to 8 for a row (R99). -/
def State.decodeRow (s : State) (d : Desc) (opc : Byte) : Except AbortError Decoded :=
  match s.stepModRM d opc ⟨none, none, 1⟩ with
  | .error e => .error e
  | .ok x =>
    match s.stepImmediate d opc (stepRegister d opc x) with
    | .error e => .error e
    | .ok y =>
      match s.stepDirect d opc y with
      | .error e => .error e
      | .ok z => .ok ⟨d.kind, z.op1, z.op2, z.n⟩

/-- Decode a row and run it (R142); an abort ends the step. -/
def State.runRow (opc : Byte) (d : Desc) (s : State) : State :=
  match s.decodeRow d opc with
  | .error e => s.raise e
  | .ok x => s.dispatch opc x

/-- `Decode(S)` (R99, R129): the opcode byte and the decoded instruction at CS:IP, or the error. It changes nothing (R122). -/
def State.decodeAt (s : State) : Except AbortError (Byte × Decoded) :=
  match s.fetchOpcode with
  | .error e => .error e
  | .ok (opc, d) =>
    match s.readAhead opc with
    | .error e => .error e
    | .ok () =>
      match s.decodeRow d opc with
      | .error e => .error e
      | .ok x => .ok (opc, x)

/-- One step of the table-driven engine from a Running state: R142 with the decoder R99, whatever the table. `step` is
stated equal to it; it is not how `step` runs the default table's rows. -/
def State.engineStep (s : State) : State :=
  match s.decodeAt with
  | .error e => s.raise e
  | .ok (opc, x) => s.dispatch opc x

end Sys2Proof.Machine
end

