-- ==== Sys2Proof/Machine/Fetch.lean ====
section
/-! DEFINITION. Fetching one instruction at CS:IP, in the order of R227: the opcode byte, its row, the three read-ahead
bytes, then the decoder of Decode.lean on the bytes that follow. -/

namespace Sys2Proof.Machine

/-- At most `n` bytes of the instruction from byte `k` on, ending where memory ends (R51, R102). -/
def State.bytesFrom (s : State) : Nat → Nat → List Byte
  | _, 0 => []
  | k, n + 1 =>
    match s.getByte (s.fetchAddr k) with
    | .ok b => b :: s.bytesFrom (k + 1) n
    | .error _ => []

/-- The bytes the decoder may consume: six at most (R11), fewer at the end of memory. -/
def State.window (s : State) : List Byte := s.bytesFrom 0 6

/-- What a fetch gives: an instruction of the default table, another row of `P_TABLE`, an abort, or a refusal. -/
inductive Fetched where
  | instr (i : Instr)
  | row (opc : Byte) (d : Desc)
  | abort (e : AbortError)
  | refuse (r : Refusal)
  deriving DecidableEq, Repr

/-- A decoding error at the code position as an abort (R222, R224, R225). When the bytes end too early, the failing address
is that of the first byte outside memory. -/
def State.decodeAbort (s : State) (opc : Byte) : DecodeError → AbortError
  | .truncated => s.outOfRangeAt (some opc) (s.fetchAddr s.window.length)
  | .unrecognized o => .unrecognizedEncoding o s.seg.cs s.ip
  | .unsupported o m => .unsupportedAddressingForm o m s.seg.cs s.ip

/-- Fetch and decode at CS:IP (R100 to R102, R227). -/
def State.fetchInstr (s : State) : Fetched :=
  match s.fetchOpcode with
  | .error e => .abort e
  | .ok (opc, d) =>
    if d.shapeOk then
      match s.readAhead opc with
      | .error e => .abort e
      | .ok () =>
        if defaultRow opc = some d then
          match decode s.window with
          | .ok (i, _) => .instr i
          | .error e => .abort (s.decodeAbort opc e)
        else .row opc d
    else .refuse (.rowWithoutDecoderPath opc)

/-- Memory with bytes stored at the fetch addresses of offsets `k`, `k + 1`, and so on; a byte that would lie outside
memory is dropped. -/
def State.storeAtFetch (s : State) : Nat → List Byte → Memory
  | _, [] => s.mem
  | k, b :: bs =>
    if s.fetchAddr k < Config.cap then Memory.write (s.storeAtFetch (k + 1) bs) (s.fetchAddr k) b
    else s.storeAtFetch (k + 1) bs

end Sys2Proof.Machine
end

