-- ==== Sys2Proof/Machine/Step.lean ====
section
/-! DEFINITION. One step of the machine (R142) and the host's placing of one instruction. -/

namespace Sys2Proof.Machine

/-- One step. From a Running state it fetches, decodes and runs one instruction (R142); an abort in decoding is a next
state with RUN = Aborted (R220; log 2). A Halted or Aborted state stays as it is: "no effect when terminal" (R141, R161;
log 3). -/
def step (s : State) : Host.Outcome State Fault Refusal :=
  match s.run with
  | .running =>
    match s.fetchInstr with
    | .instr i => exec i s
    | .row opc d => .next (s.runRow opc d)
    | .abort e => .next (s.raise e)
    | .refuse r => .refused r
  | .halted => .next s
  | .aborted _ => .next s

/-- The state with an instruction stored where the next step fetches, and RUN = Running, without which nothing is fetched
(R141). It stands for the loader's copy of an image (R251; log 8). -/
def State.withFetchWord (s : State) (nbits w : Nat) : State :=
  { s with mem := s.storeAtFetch 0 (tableBytes nbits w), run := .running }

end Sys2Proof.Machine
end

