-- ==== Sys2Proof/Machine/Dump.lean ====
section
/-! DEFINITION. What the external diagnostic dump reads after the run loop returns (R158): the general registers, the
segment registers and the word at 0x0500. Read-only. -/

namespace Sys2Proof.Machine

/-- The dump's view (R158). -/
structure Dump where
  gpr  : Gprs
  seg  : Segs
  word : Except Nat Word

/-- The dump of a run that ended in Halted; what is printed after an abort the spec does not define (R157; log 14). -/
def dump (s : State) : Option Dump :=
  if s.run = .halted then some ⟨s.gpr, s.seg, s.getWord 0x0500⟩ else none

end Sys2Proof.Machine
end

