-- ==== Sys2Proof/Machine/Flags.lean ====
section
/-! DEFINITION. The flag operations. No instruction computes, reads or writes a flag (R30, R151); the one write is the
loader's `TF <- false` (R251). -/

namespace Sys2Proof.Machine

/-- The loader's write: `TF <- false`, the other eight as they were (R30, R251). -/
def Flags.clearTrap (f : Flags) : Flags := { f with trap := false }

end Sys2Proof.Machine
end

