-- ==== Sys2Proof/Machine/Launch.lean ====
section
/-! DEFINITION. How a run starts (70_reset_and_hazards.md): the loader's initial state from the launch arguments
`P_INIT`, `P_INIT_MEM`, `P_IMAGE`, `P_DESIGNATED_REG` and the parameters (R10, R37, R251 to R253), and what the model
refuses to launch (R97, R252). -/

namespace Sys2Proof.Machine

/-- The launch arguments (R10, R253). `seg.cs` and `flags.trap` are overwritten by the loader. `mem` lists `P_INIT_MEM`
where it differs from the unlisted byte; the first cell listed for an address counts. -/
structure LaunchArgs where
  params     : Params
  gpr        : Gprs
  seg        : Segs
  flags      : Flags
  designated : GReg
  mem        : List Host.Cell
  image      : List Byte
  deriving DecidableEq, Repr

/-- What the model refuses before any run: a table that is not well formed (R97), an image that does not fit (R252). -/
inductive LaunchRefusal where
  | tableNotWellFormed
  | imageTooLong
  deriving DecidableEq, Repr

/-- Where the image goes: `Lin(0xF000, 0x0100)` = 0xF0100 (R64, R251). -/
def imageBase : Nat := lin 0xF000 0x0100

/-- The longest image, 0x1FEF0 bytes (R252). -/
def imageLimit : Nat := Config.cap - imageBase

/-- Cells in canonical form; a cell outside memory does not exist (R50). -/
def Memory.ofCells : List Host.Cell → Memory
  | [] => []
  | (a, b) :: cs => if a < Config.cap then Memory.write (Memory.ofCells cs) a b else Memory.ofCells cs

/-- Copy bytes to rising addresses (R251). -/
def Memory.copy (m : Memory) : Nat → List Byte → Memory
  | _, [] => m
  | a, b :: bs => Memory.copy (Memory.write m a b) (a + 1) bs

/-- `LoaderInit` (R251): the launch arguments, with CS, IP, TF, the designated register's low byte and the image. -/
def loaderInit (x : LaunchArgs) : State :=
  { gpr := x.gpr.write x.designated (setLo (x.gpr.read x.designated) 0x00)
    seg := x.seg.write .cs 0xF000
    flags := x.flags.clearTrap
    ip := 0x0100
    mem := (Memory.ofCells x.mem).copy imageBase x.image
    run := .running
    params := x.params }

/-- A launch (R251, R255): refused for a table or an image the model does not take (R97, R252). -/
def launch (x : LaunchArgs) : Except LaunchRefusal State :=
  if !tableOk x.params.table then .error .tableNotWellFormed
  else if imageLimit < x.image.length then .error .imageTooLong
  else .ok (loaderInit x)

/-- The launch `State.reset` stands for: default parameters, zeros (logs 4 to 7), no image (log 8). -/
def LaunchArgs.zeros (designated : GReg) : LaunchArgs :=
  { params := defaultParams
    gpr := ⟨0, 0, 0, 0, 0, 0, 0, 0⟩
    seg := ⟨0, 0, 0, 0⟩
    flags := ⟨false, false, false, false, false, false, false, false, false⟩
    designated := designated
    mem := []
    image := [] }

end Sys2Proof.Machine
end

