-- ==== Sys2Proof/Safety.lean ====
section
/-! DEFINITION. What the claims are stated in: the invariant of the machine, terminal states and clean runs, what
a load, a store and an abort leave (their frames), and which word an instruction loads or stores. -/

namespace Sys2Proof.Machine

/-- The code position recorded in an error (R225). -/
def AbortError.position : AbortError → Word × Nat
  | .unrecognizedEncoding _ cs ip => (cs, ip)
  | .unsupportedAddressingForm _ _ cs ip => (cs, ip)
  | .invalidOperandCombination _ cs ip _ _ => (cs, ip)
  | .outOfRange _ cs ip _ => (cs, ip)

/-- The run state is Halted or Aborted (R140). -/
def State.terminal (s : State) : Prop := s.run ≠ .running

/-- The run has not aborted (R240). -/
def State.clean (s : State) : Prop := ∀ e, s.run ≠ .aborted e

/-- The invariant of the machine: memory is in canonical form; under `P_IP_WRAP16` the IP is in 0..0xFFFF (R31); an
Aborted state's CS:IP is the code position its error records (R148, R225). -/
structure State.Inv (s : State) : Prop where
  memory   : s.mem.wf = true
  ip       : s.params.ipWrap16 = true → s.ip < 0x10000
  position : ∀ e, s.run = .aborted e → e.position = (s.seg.cs, s.ip)

/-- A state with every row of its table well formed (R97): what every launch gives. -/
def State.tableOk (s : State) : Prop := Sys2Proof.tableOk s.params.table = true

/-! ### Frames -/

/-- The instruction pointer after an instruction of `size` bytes (R146). -/
def State.nextIp (s : State) (size : Nat) : Nat := if s.params.ipWrap16 then (s.ip + size) % 0x10000 else s.ip + size

/-- From `s` to `t`: general register `r` holds `v`, IP is `size` bytes on, and everything else is as before: the other
general registers, the segment registers, the flags, every byte of memory, the run state, the parameters. -/
structure LoadsGpr (s t : State) (r : GReg) (v : Word) (size : Nat) : Prop where
  value  : t.gpr.read r = v
  gpr    : ∀ q, q ≠ r → t.gpr.read q = s.gpr.read q
  seg    : ∀ q, t.seg.read q = s.seg.read q
  flags  : t.flags = s.flags
  memory : ∀ a, t.mem.read a = s.mem.read a
  run    : t.run = s.run
  params : t.params = s.params
  ip     : t.ip = s.nextIp size

/-- From `s` to `t`: segment register `r` holds `v`, IP is `size` bytes on, and everything else is as before. -/
structure LoadsSeg (s t : State) (r : SReg) (v : Word) (size : Nat) : Prop where
  value  : t.seg.read r = v
  seg    : ∀ q, q ≠ r → t.seg.read q = s.seg.read q
  gpr    : ∀ q, t.gpr.read q = s.gpr.read q
  flags  : t.flags = s.flags
  memory : ∀ a, t.mem.read a = s.mem.read a
  run    : t.run = s.run
  params : t.params = s.params
  ip     : t.ip = s.nextIp size

/-- From `s` to `t`: the byte at `a` is the high byte of `v` and the byte at `a + 1` its low byte (R54), IP is `size` bytes
on, and everything else is as before: every other byte of memory, every register and flag, the run state, the
parameters. -/
structure StoresWord (s t : State) (a : Nat) (v : Word) (size : Nat) : Prop where
  high   : (t.mem.read a).toNat = v.toNat / 256
  low    : (t.mem.read (a + 1)).toNat = v.toNat % 256
  memory : ∀ b, b ≠ a → b ≠ a + 1 → t.mem.read b = s.mem.read b
  gpr    : ∀ q, t.gpr.read q = s.gpr.read q
  seg    : ∀ q, t.seg.read q = s.seg.read q
  flags  : t.flags = s.flags
  run    : t.run = s.run
  params : t.params = s.params
  ip     : t.ip = s.nextIp size

/-- From `s` to `t`: RUN is Aborted with error `e`, and nothing else has changed (R228). -/
structure AbortsUnchanged (s t : State) (e : AbortError) : Prop where
  run    : t.run = .aborted e
  gpr    : ∀ q, t.gpr.read q = s.gpr.read q
  seg    : ∀ q, t.seg.read q = s.seg.read q
  flags  : t.flags = s.flags
  ip     : t.ip = s.ip
  memory : ∀ a, t.mem.read a = s.mem.read a
  params : t.params = s.params

/-! ### The memory word of an instruction -/

/-- The linear address of a memory operand. -/
def operandAddress : Operand → Option Nat
  | .mem a => some a
  | .reg _ => none
  | .imm _ => none

/-- The linear address an instruction reads a word from, where its source operand is memory. -/
def loadAddr (i : Instr) (s : State) : Option Nat :=
  match i with
  | .movbRegRm _ rm => operandAddress (s.resolve rm)
  | .movRegRm _ rm => operandAddress (s.resolve rm)
  | .movbRmReg _ _ => none
  | .movRmReg _ _ => none
  | .movGprSeg _ _ => none
  | .movSegGpr _ _ => none
  | .movbAxMem addr => some (s.eaLinear addr.toNat)
  | .movAxMem addr => some (s.eaLinear addr.toNat)
  | .movbMemAx _ => none
  | .movMemAx _ => none
  | .movbAxImm8 _ => none
  | .movbCxImm8 _ => none
  | .movbDxImm8 _ => none
  | .movbBxImm8 _ => none
  | .movbSpImm8 _ => none
  | .movbBpImm8 _ => none
  | .movbSiImm8 _ => none
  | .movbDiImm8 _ => none
  | .movAxImm16 _ => none
  | .movCxImm16 _ => none
  | .movDxImm16 _ => none
  | .movBxImm16 _ => none
  | .movSpImm16 _ => none
  | .movBpImm16 _ => none
  | .movSiImm16 _ => none
  | .movDiImm16 _ => none
  | .movbRmImm8 _ _ => none
  | .movRmImm16 _ _ => none
  | .hlt => none

/-- The linear address and the word an instruction writes there, where its destination operand is memory. -/
def storeOf (i : Instr) (s : State) : Option (Nat × Word) :=
  match i with
  | .movbRegRm _ _ => none
  | .movRegRm _ _ => none
  | .movbRmReg rm reg => (operandAddress (s.resolve rm)).map fun a => (a, s.gpr.read reg)
  | .movRmReg rm reg => (operandAddress (s.resolve rm)).map fun a => (a, s.gpr.read reg)
  | .movGprSeg _ _ => none
  | .movSegGpr _ _ => none
  | .movbAxMem _ => none
  | .movAxMem _ => none
  | .movbMemAx addr => some (s.eaLinear addr.toNat, s.gpr.ax)
  | .movMemAx addr => some (s.eaLinear addr.toNat, s.gpr.ax)
  | .movbAxImm8 _ => none
  | .movbCxImm8 _ => none
  | .movbDxImm8 _ => none
  | .movbBxImm8 _ => none
  | .movbSpImm8 _ => none
  | .movbBpImm8 _ => none
  | .movbSiImm8 _ => none
  | .movbDiImm8 _ => none
  | .movAxImm16 _ => none
  | .movCxImm16 _ => none
  | .movDxImm16 _ => none
  | .movBxImm16 _ => none
  | .movSpImm16 _ => none
  | .movBpImm16 _ => none
  | .movSiImm16 _ => none
  | .movDiImm16 _ => none
  | .movbRmImm8 rm imm => (operandAddress (s.resolve rm)).map fun a => (a, zext16 imm)
  | .movRmImm16 rm imm => (operandAddress (s.resolve rm)).map fun a => (a, imm)
  | .hlt => none

end Sys2Proof.Machine
end

