-- ==== Sys2Proof/Certificates/Slice0/Obligations.lean ====
section
/-! DEFINITION. The statements for the provers. "stated" ones formalise a numbered rule of spec/; "derived" ones rest on
rules the spec marks as its own decision or derivation, or on a choice of this model named in the docstring. -/

open Sys2Proof Sys2Proof.Machine

/-! ### Start of a run -/

/-- R251: the loader's initial state, for every launch argument: CS, IP, TF and the designated register's low byte as the
loader sets them, the image byte for byte from linear 0xF0100, everything else as the launch arguments give it, RUN
Running, and the first fetch at 0xF0100. -/
def Obligations.LaunchEstablishesLoaderState : Prop :=
  ∀ (x : LaunchArgs) (s : State), launch x = .ok s →
    s.seg.cs = 0xF000 ∧ s.ip = 0x0100 ∧ s.flags.trap = false ∧ s.run = .running ∧
    lo (s.gpr.read x.designated) = 0x00 ∧ hi (s.gpr.read x.designated) = hi (x.gpr.read x.designated) ∧
    (∀ r, r ≠ x.designated → s.gpr.read r = x.gpr.read r) ∧
    (∀ r, r ≠ SReg.cs → s.seg.read r = x.seg.read r) ∧
    s.flags = { x.flags with trap := false } ∧
    (∀ (j : Nat) (h : j < x.image.length), s.mem.read (0xF0100 + j) = x.image[j]) ∧
    (∀ a, a < 0x10FFF0 → (a < 0xF0100 ∨ 0xF0100 + x.image.length ≤ a) → s.mem.read a = Memory.read x.mem a) ∧
    s.params = x.params ∧ s.fetchAddr 0 = 0xF0100

/-- Derived (R97, R252, decisions D15 and D18): a launch is refused exactly for a table that is not well formed or an image
longer than 0x1FEF0 bytes. -/
def Obligations.LaunchRefusesBadTablesAndLongImages : Prop :=
  ∀ x : LaunchArgs,
    (tableOk x.params.table = false → launch x = .error .tableNotWellFormed) ∧
    (tableOk x.params.table = true → 0x1FEF0 < x.image.length → launch x = .error .imageTooLong) ∧
    (tableOk x.params.table = true → x.image.length ≤ 0x1FEF0 → ∃ s, launch x = .ok s)

/-- Derived: the reset state is the launch with zeros and no image, whichever register is designated. The zeros are this
model's choice (logs 4 to 7); CS, IP, TF, RUN and the low byte are the loader's (R37). -/
def Obligations.ResetIsLaunchOfZeros : Prop :=
  (∀ r, launch (LaunchArgs.zeros r) = .ok State.reset) ∧
  State.reset.seg.cs = 0xF000 ∧ State.reset.ip = 0x0100 ∧ State.reset.flags.trap = false ∧
  State.reset.run = .running ∧ (∀ r, lo (State.reset.gpr.read r) = 0x00)

/-! ### The invariant -/

/-- Derived: the reset state satisfies the invariant and its table is well formed (R97). -/
def Obligations.ResetSatisfiesInvariant : Prop := State.reset.Inv ∧ State.reset.tableOk

/-- Derived: every launch gives a Running state that satisfies the invariant and whose table is well formed. -/
def Obligations.LaunchSatisfiesInvariant : Prop :=
  ∀ (x : LaunchArgs) (s : State), launch x = .ok s → s.Inv ∧ s.tableOk ∧ s.run = .running

/-- Derived: every step keeps the invariant: memory stays canonical, IP stays in 0..0xFFFF under `P_IP_WRAP16` (R31), and
an abort records the code position the state keeps (R148, R225). -/
def Obligations.StepKeepsInvariant : Prop :=
  ∀ s t : State, s.Inv → step s = .next t → t.Inv

/-- Derived: two memories in canonical form with equal bytes are equal data. -/
def Obligations.CanonicalMemoriesWithEqualBytesAreEqual : Prop :=
  ∀ m m' : Memory, m.wf = true → m'.wf = true → (∀ a, m.read a = m'.read a) → m = m'

/-! ### Encoding -/

/-- Derived (R80, R89 to R94): decoding an encoded well-formed instruction, with any bytes after it, gives it back and
leaves those bytes. -/
def Obligations.DecodeOfEncodeIsInstruction : Prop :=
  ∀ (i : Instr) (rest : List Byte), i.wf = true → decode (encode i ++ rest) = .ok (i, rest)

/-- Derived (R88, R119, R120): whatever decodes is well formed, and the bytes consumed are its encoding, as many as its
size. -/
def Obligations.EncodeOfDecodeIsBytes : Prop :=
  ∀ (bs : List Byte) (i : Instr) (rest : List Byte), decode bs = .ok (i, rest) →
    i.wf = true ∧ bs = encode i ++ rest ∧ bs.length = i.size + rest.length

/-- Derived (section 2.3 to 2.5 of the test vectors): words written out from the formats decode to the instruction they
stand for. -/
def Obligations.SpecWordsDecodeAsWritten : Prop :=
  decode [0x88, 0xC8] = .ok (.movbRegRm .cx (.reg .ax), []) ∧
  decode [0x89, 0x57, 0x10] = .ok (.movRegRm .dx (.disp8 .bx 0x10), []) ∧
  decode [0x8A, 0x1E, 0x00, 0x05] = .ok (.movbRmReg (.direct 0x0500) .bx, []) ∧
  decode [0x8B, 0x80, 0x34, 0x12] = .ok (.movRmReg (.disp16 .bxSi 0x1234) .ax, []) ∧
  decode [0x8C, 0xDB] = .ok (.movGprSeg 3 .ds, []) ∧
  decode [0x8E, 0xC9] = .ok (.movSegGpr 1 .cs, []) ∧
  decode [0xA1, 0x00, 0x05] = .ok (.movAxMem 0x0500, []) ∧
  decode [0xA3, 0x00, 0x05] = .ok (.movMemAx 0x0500, []) ∧
  decode [0xB4, 0x01] = .ok (.movbSpImm8 0x01, []) ∧
  decode [0xB8, 0x34, 0x12] = .ok (.movAxImm16 0x1234, []) ∧
  decode [0xC6, 0x46, 0x02, 0xFF] = .ok (.movbRmImm8 (.disp8 .bp 0x02) 0xFF, []) ∧
  decode [0xC7, 0x06, 0x00, 0x05, 0x34, 0x12] = .ok (.movRmImm16 (.direct 0x0500) 0x1234, []) ∧
  decode [0xF4] = .ok (.hlt, [])

/-- Derived (R123, R124; decisions D3 and D4): the decoder refuses exactly the opcode bytes without a row, and exactly the
ModRM bytes R124 lists: for 0x8C and 0x8E a mod other than 3 or an rm above 3, for 0xC6 and 0xC7 a reg other than 0. -/
def Obligations.DecoderRefusesExactlyTheListedForms : Prop :=
  (∀ (opc : Byte) (bs : List Byte), decode (opc :: bs) = .error (.unrecognized opc) ↔ defaultRow opc = none) ∧
  (∀ (opc m : Byte) (rest : List Byte), decode (opc :: m :: rest) = .error (.unsupported opc m) ↔
    ((opc = 0x8C ∨ opc = 0x8E) ∧ (m.toNat / 64 ≠ 3 ∨ 3 < m.toNat % 8)) ∨
    ((opc = 0xC6 ∨ opc = 0xC7) ∧ m.toNat / 8 % 8 ≠ 0))

/-- Derived (R95, R97, R98; decision D1): the default table is well formed, has 29 rows, and 227 byte values have none. -/
def Obligations.DefaultTableIsWellFormed : Prop :=
  tableOk defaultTable = true ∧ defaultTable.length = 29 ∧
  ((List.range 256).filter fun n => (defaultRow (BitVec.ofNat 8 n)).isNone).length = 227

/-- R88: lookup is by exact byte match; a table with distinct bytes finds each of its rows; a byte without a row finds
none; and no step changes the table. -/
def Obligations.TableLookupIsExactAndConstant : Prop :=
  (∀ (p : Params) (opc : Byte) (d : Desc), p.lookup opc = some d → d ∈ p.table ∧ d.byte = opc) ∧
  (∀ p : Params, p.byteRows = true → bytesDistinct p.table = true → ∀ d ∈ p.table, p.lookup d.byte = some d) ∧
  (∀ (p : Params) (opc : Byte), p.byteRows = true → (p.lookup opc = none ↔ ∀ d ∈ p.table, d.byte ≠ opc)) ∧
  (∀ s t : State, step s = .next t → t.params = s.params)

/-! ### The step -/

/-- Derived (R142): when the bytes at CS:IP decode to an instruction of the default table, with the read-ahead bytes in
range and the opcode's row in the table, the step is that instruction's `exec`. The step adds nothing around it. -/
def Obligations.StepRunsDecodedInstruction : Prop :=
  ∀ (s : State) (i : Instr) (rest : List Byte), s.run = .running → decode s.window = .ok (i, rest) →
    (∀ k, k ≤ 3 → s.fetchAddr k < Config.cap) → s.params.lookup i.opcode = defaultRow i.opcode →
    step s = exec i s

/-- Derived (R102, R120, R142): when the bytes at Lin(CS, IP + k) are an instruction's encoding, whatever lies after
them, the step is that instruction's `exec`. -/
def Obligations.StepRunsEncodedBytes : Prop :=
  ∀ (s : State) (i : Instr), s.run = .running → i.wf = true →
    (∀ (k : Nat) (h : k < (encode i).length), s.getByte (s.fetchAddr k) = .ok (encode i)[k]) →
    (∀ k, k ≤ 3 → s.fetchAddr k < Config.cap) → s.params.lookup i.opcode = defaultRow i.opcode →
    step s = exec i s

/-- R130: for every table whose rows have the shapes of R97, the step is the step R142 with the decoder R99 on the looked-up
row (`State.engineStep`): each instruction's own meaning agrees with the table-driven algorithm, and a row added to the
table runs by the same algorithm. -/
def Obligations.StepIsTableDrivenStep : Prop :=
  ∀ s : State, s.run = .running → (∀ d ∈ s.params.table, d.shapeOk = true) → step s = .next s.engineStep

/-- Derived (R141, and R161 of decision D16): Halted and Aborted are terminal; nothing changes after them. That `step` answers
the same state there, where R141 says there is no step, is this model's reading (log 3). -/
def Obligations.TerminalStatesStay : Prop :=
  ∀ s : State, (s.run = .halted ∨ ∃ e, s.run = .aborted e) → step s = .next s

/-- Derived (R156; decision D9): without IP wrap every run has ended after 0x10FFF1 steps, whatever it writes. -/
def Obligations.UnwrappedRunsEnd : Prop :=
  ∀ s : State, s.params.ipWrap16 = false → (∀ d ∈ s.params.table, d.shapeOk = true) →
    ∃ t : State, Host.Core.run core 0x10FFF1 s = .next t ∧ t.terminal

/-- Derived (R156): with IP wrap some run never ends. -/
def Obligations.WrappedRunCanGoOnForever : Prop :=
  ∃ s : State, s.Inv ∧ s.params = { defaultParams with ipWrap16 := true } ∧
    ∀ k, ∃ t : State, Host.Core.run core k s = .next t ∧ t.run = .running

/-! ### Flags -/

/-- R30: no step writes a flag, no flag changes what a step does, and the loader's only write is TF. -/
def Obligations.FlagsAreNeitherReadNorWritten : Prop :=
  (∀ s t : State, step s = .next t → t.flags = s.flags) ∧
  (∀ (s t : State) (f : Flags), step s = .next t → step { s with flags := f } = .next { t with flags := f }) ∧
  (∀ (s : State) (r : Refusal) (f : Flags), step s = .refused r → step { s with flags := f } = .refused r) ∧
  (∀ x : LaunchArgs, (loaderInit x).flags = { x.flags with trap := false })

/-! ### Registers and memory -/

/-- R23, R25: the byte views of any register, general or segment, and their writes; the other byte and the other registers
are kept. -/
def Obligations.ByteViewsAliasOneRegister : Prop :=
  ∀ (s : State) (r : RegRef) (b : Byte),
    (s.readHi r).toNat = (s.readReg r).toNat / 256 ∧ (s.readLo r).toNat = (s.readReg r).toNat % 256 ∧
    ((s.writeHi r b).readReg r).toNat = 256 * b.toNat + (s.readReg r).toNat % 256 ∧
    ((s.writeLo r b).readReg r).toNat = 256 * ((s.readReg r).toNat / 256) + b.toNat ∧
    (s.writeLo r b).readHi r = s.readHi r ∧ (s.writeHi r b).readLo r = s.readLo r ∧
    (s.writeLo r b).readLo r = b ∧ (s.writeHi r b).readHi r = b ∧
    256 * (s.readHi r).toNat + (s.readLo r).toNat = (s.readReg r).toNat ∧
    (∀ q, q ≠ r → (s.writeHi r b).readReg q = s.readReg q ∧ (s.writeLo r b).readReg q = s.readReg q)

/-- R52, R53: a byte read gives the cell; a byte write changes exactly the one cell named, and nothing else of the state; at
or above the capacity both fail at that address and change nothing. -/
def Obligations.ByteAccessTouchesOneCell : Prop :=
  ∀ (s : State) (a : Nat) (b : Byte),
    (a < 0x10FFF0 → s.getByte a = .ok (s.mem.read a) ∧
      ∃ t : State, s.setByte b a = (t, none) ∧ t.mem.read a = b ∧ (∀ c, c ≠ a → t.mem.read c = s.mem.read c) ∧
        t = { s with mem := t.mem }) ∧
    (0x10FFF0 ≤ a → s.getByte a = .error a ∧ s.setByte b a = (s, some a))

/-- R54: a word read and a word write are two byte accesses, high byte first at the lower address. -/
def Obligations.WordAccessIsTwoByteAccesses : Prop :=
  (∀ (s : State) (a : Nat) (h l : Byte), s.getByte a = .ok h → s.getByte (a + 1) = .ok l →
    ∃ v : Word, s.getWord a = .ok v ∧ v.toNat = 256 * h.toNat + l.toNat) ∧
  (∀ (s : State) (a e : Nat), s.getByte a = .error e → s.getWord a = .error e) ∧
  (∀ (s : State) (a e : Nat) (h : Byte), s.getByte a = .ok h → s.getByte (a + 1) = .error e → s.getWord a = .error e) ∧
  (∀ (s : State) (a : Nat) (v : Word), ∃ h l : Byte, h.toNat = v.toNat / 256 ∧ l.toNat = v.toNat % 256 ∧
    (∀ e, (s.setByte h a).2 = some e → s.setWord v a = s.setByte h a) ∧
    ((s.setByte h a).2 = none → s.setWord v a = (s.setByte h a).1.setByte l (a + 1)))

/-- Derived (R55): at the last byte of memory a word write leaves its high byte and is cut at 0x10FFF0, and a word read
gives nothing; at or above the capacity a word write changes nothing. -/
def Obligations.WordAccessAtTopOfMemoryIsCut : Prop :=
  ∀ (s : State) (v : Word),
    (∃ t : State, s.setWord v 0x10FFEF = (t, some 0x10FFF0) ∧ (t.mem.read 0x10FFEF).toNat = v.toNat / 256 ∧
      (∀ c, c ≠ 0x10FFEF → t.mem.read c = s.mem.read c) ∧ t = { s with mem := t.mem }) ∧
    s.getWord 0x10FFEF = .error 0x10FFF0 ∧
    (∀ a, 0x10FFF0 ≤ a → s.setWord v a = (s, some a) ∧ s.getWord a = .error a)

/-- Derived (R56): after a word write the word and both of its bytes read back, and a word that overlaps it sees the shared
byte. -/
def Obligations.WordReadsBackAfterWordWrite : Prop :=
  ∀ (s : State) (v : Word) (a : Nat), a ≤ 0x10FFEE → ∃ t : State, s.setWord v a = (t, none) ∧
    t.getWord a = .ok v ∧ t.getByte a = .ok (hi v) ∧ t.getByte (a + 1) = .ok (lo v) ∧
    (a + 2 < 0x10FFF0 → t.getWord (a + 1) = .ok (be16 (lo v) (s.mem.read (a + 2)))) ∧
    (∀ c, c + 1 = a → t.getWord c = .ok (be16 (s.mem.read c) (hi v)))

/-- R57, R58: the translation is seg*16 + off; of two 16-bit values it is at most 0x10FFEF, below the capacity, so the access
by segment and offset is the access at that address and in range; an offset above 0xFFFF can be out of range. -/
def Obligations.TranslationOfWordsStaysInMemory : Prop :=
  (∀ (s : State) (seg : Word) (off : Nat), lin seg off = seg.toNat * 16 + off ∧
    s.getByteSO seg off = s.getByte (seg.toNat * 16 + off) ∧ s.getWordSO seg off = s.getWord (seg.toNat * 16 + off) ∧
    (∀ b, s.setByteSO b seg off = s.setByte b (seg.toNat * 16 + off)) ∧
    (∀ v, s.setWordSO v seg off = s.setWord v (seg.toNat * 16 + off))) ∧
  (∀ seg off : Word, lin seg off.toNat ≤ 0x10FFEF ∧ 0x10FFEF < Config.cap) ∧
  lin 0xFFFF 0xFFFF = 0x10FFEF ∧ Config.cap ≤ lin 0xFFFF 0x10000

/-! ### Operands -/

/-- R105: the effective-address base of each rm, as natural-number sums in 0..0x1FFFE. -/
def Obligations.EffectiveAddressBases : Prop :=
  ∀ s : State,
    s.eaBase (EaBase.ofIndex 0) = s.gpr.bx.toNat + s.gpr.si.toNat ∧
    s.eaBase (EaBase.ofIndex 1) = s.gpr.bx.toNat + s.gpr.di.toNat ∧
    s.eaBase (EaBase.ofIndex 2) = s.gpr.bp.toNat + s.gpr.si.toNat ∧
    s.eaBase (EaBase.ofIndex 3) = s.gpr.bp.toNat + s.gpr.di.toNat ∧
    s.eaBase (EaBase.ofIndex 4) = s.gpr.si.toNat ∧ s.eaBase (EaBase.ofIndex 5) = s.gpr.di.toNat ∧
    s.eaBase (EaBase.ofIndex 6) = s.gpr.bp.toNat ∧ s.eaBase (EaBase.ofIndex 7) = s.gpr.bx.toNat ∧
    (∀ rm, s.eaBase (EaBase.ofIndex rm) ≤ 0x1FFFE)

/-- Derived (R86, R106, R107, R109; R108, which the spec derives from R107 and C1; R110, decision D8, log 9): the three fields
of a ModRM byte; the bytes each mod and rm consume after it and the form they give; and the effective address of each form,
whatever `P_EA_SEG` then adds: a displacement of one or two bytes is added unsigned, mod 0 with rm 6 is a little-endian
direct address without a base. Sums are not truncated, as the default `P_EA_WRAP16` leaves them (D8). -/
def Obligations.ModRMFieldsAndForms : Prop :=
  (∀ m : Byte, (modField m).toNat = m.toNat / 64 ∧ (regField m).toNat = m.toNat / 8 % 8 ∧
    (rmField m).toNat = m.toNat % 8) ∧
  (∀ (rm : BitVec 3) (b0 b1 : Byte) (bs : List Byte) (k : RmOp → List Byte → DecodeResult),
    (rm ≠ 6 → takeRm 0 rm bs k = k (.base (EaBase.ofIndex rm)) bs) ∧
    (∃ a : Word, a.toNat = b0.toNat + 256 * b1.toNat ∧ takeRm 0 6 (b0 :: b1 :: bs) k = k (.direct a) bs) ∧
    takeRm 1 rm (b0 :: bs) k = k (.disp8 (EaBase.ofIndex rm) b0) bs ∧
    (∃ d : Word, d.toNat = b0.toNat + 256 * b1.toNat ∧
      takeRm 2 rm (b0 :: b1 :: bs) k = k (.disp16 (EaBase.ofIndex rm) d) bs) ∧
    takeRm 3 rm bs k = k (.reg (GReg.ofIndex rm)) bs) ∧
  (∀ (s : State) (b : EaBase) (a d16 : Word) (d8 : Byte), s.params.eaWrap16 = false →
    s.resolve (.direct a) = .mem (s.eaLinear a.toNat) ∧
    s.resolve (.base b) = .mem (s.eaLinear (s.eaBase b)) ∧
    s.resolve (.disp8 b d8) = .mem (s.eaLinear (s.eaBase b + d8.toNat)) ∧
    s.resolve (.disp16 b d16) = .mem (s.eaLinear (s.eaBase b + d16.toNat)))

/-- Derived (R106 to R111; decisions D7 and D8): the operand each ModRM side names, under every setting of `P_EA_SEG` and
`P_EA_WRAP16`. A displacement of either size is added unsigned; only sums with a base are reduced; the segment is added
last. -/
def Obligations.OperandOfEachRmForm : Prop :=
  ∀ (s : State) (r : GReg) (a d16 : Word) (d8 : Byte) (b : EaBase),
    s.resolve (.reg r) = .reg (.gen r) ∧
    (∃ seg : Nat, (s.params.eaSeg = .unsegmented → seg = 0) ∧ (s.params.eaSeg = .ds → seg = s.seg.ds.toNat * 16) ∧
      s.resolve (.direct a) = .mem (seg + a.toNat) ∧
      (s.params.eaWrap16 = false →
        s.resolve (.base b) = .mem (seg + s.eaBase b) ∧
        s.resolve (.disp8 b d8) = .mem (seg + (s.eaBase b + d8.toNat)) ∧
        s.resolve (.disp16 b d16) = .mem (seg + (s.eaBase b + d16.toNat))) ∧
      (s.params.eaWrap16 = true →
        s.resolve (.base b) = .mem (seg + s.eaBase b % 65536) ∧
        s.resolve (.disp8 b d8) = .mem (seg + (s.eaBase b + d8.toNat) % 65536) ∧
        s.resolve (.disp16 b d16) = .mem (seg + (s.eaBase b + d16.toNat) % 65536)))

/-- Derived (R110, R111, R171; decisions D7 and D8): under the default `P_EA_SEG` a memory operand's address is at most
0x2FFFD, so its word is inside memory. -/
def Obligations.UnsegmentedMemoryOperandsAreInRange : Prop :=
  ∀ (s : State) (i : Instr) (a : Nat), s.params.eaSeg = .unsegmented →
    (loadAddr i s = some a ∨ ∃ v, storeOf i s = some (a, v)) → a ≤ 0x2FFFD ∧ a + 1 < Config.cap

/-! ### The instructions: result, frame and completion -/

/-- Derived (R182 to R189; decisions D5 and D6): MOV.B r, imm8 writes the whole register with the zero-extended byte. -/
def Obligations.ByteImmediateLoadsWholeRegister : Prop :=
  ∀ (s : State) (imm : Byte) (v : Word), v.toNat = imm.toNat →
    (∃ t, exec (.movbAxImm8 imm) s = .next t ∧ LoadsGpr s t .ax v 2) ∧
    (∃ t, exec (.movbCxImm8 imm) s = .next t ∧ LoadsGpr s t .cx v 2) ∧
    (∃ t, exec (.movbDxImm8 imm) s = .next t ∧ LoadsGpr s t .dx v 2) ∧
    (∃ t, exec (.movbBxImm8 imm) s = .next t ∧ LoadsGpr s t .bx v 2) ∧
    (∃ t, exec (.movbSpImm8 imm) s = .next t ∧ LoadsGpr s t .sp v 2) ∧
    (∃ t, exec (.movbBpImm8 imm) s = .next t ∧ LoadsGpr s t .bp v 2) ∧
    (∃ t, exec (.movbSiImm8 imm) s = .next t ∧ LoadsGpr s t .si v 2) ∧
    (∃ t, exec (.movbDiImm8 imm) s = .next t ∧ LoadsGpr s t .di v 2)

/-- Derived (R190 to R197): MOV r, imm16 writes the register with the immediate, whose bytes are little-endian in the
instruction (R59, C1). -/
def Obligations.WordImmediateLoadsRegister : Prop :=
  ∀ (s : State) (b0 b1 : Byte) (v : Word), v.toNat = b0.toNat + 256 * b1.toNat →
    (∃ i t, decode [0xB8, b0, b1] = .ok (i, []) ∧ i = .movAxImm16 v ∧ exec i s = .next t ∧ LoadsGpr s t .ax v 3) ∧
    (∃ i t, decode [0xB9, b0, b1] = .ok (i, []) ∧ i = .movCxImm16 v ∧ exec i s = .next t ∧ LoadsGpr s t .cx v 3) ∧
    (∃ i t, decode [0xBA, b0, b1] = .ok (i, []) ∧ i = .movDxImm16 v ∧ exec i s = .next t ∧ LoadsGpr s t .dx v 3) ∧
    (∃ i t, decode [0xBB, b0, b1] = .ok (i, []) ∧ i = .movBxImm16 v ∧ exec i s = .next t ∧ LoadsGpr s t .bx v 3) ∧
    (∃ i t, decode [0xBC, b0, b1] = .ok (i, []) ∧ i = .movSpImm16 v ∧ exec i s = .next t ∧ LoadsGpr s t .sp v 3) ∧
    (∃ i t, decode [0xBD, b0, b1] = .ok (i, []) ∧ i = .movBpImm16 v ∧ exec i s = .next t ∧ LoadsGpr s t .bp v 3) ∧
    (∃ i t, decode [0xBE, b0, b1] = .ok (i, []) ∧ i = .movSiImm16 v ∧ exec i s = .next t ∧ LoadsGpr s t .si v 3) ∧
    (∃ i t, decode [0xBF, b0, b1] = .ok (i, []) ∧ i = .movDiImm16 v ∧ exec i s = .next t ∧ LoadsGpr s t .di v 3)

/-- Derived (R172, R173; decisions D2 and D6): 0x88 and 0x89 load the reg-field register with a register, or with the
big-endian word at the operand's address when both its bytes are inside memory. -/
def Obligations.ModRMLoadsRegister : Prop :=
  ∀ (s : State) (reg : GReg) (rm : RmOp),
    (∀ r, rm = .reg r →
      (∃ t, exec (.movbRegRm reg rm) s = .next t ∧ LoadsGpr s t reg (s.gpr.read r) 2) ∧
      (∃ t, exec (.movRegRm reg rm) s = .next t ∧ LoadsGpr s t reg (s.gpr.read r) 2)) ∧
    (∀ a v, s.resolve rm = .mem a → a + 1 < Config.cap →
      BitVec.toNat v = 256 * (s.mem.read a).toNat + (s.mem.read (a + 1)).toNat →
      (∃ t, exec (.movbRegRm reg rm) s = .next t ∧ LoadsGpr s t reg v (2 + rm.dispLen)) ∧
      (∃ t, exec (.movRegRm reg rm) s = .next t ∧ LoadsGpr s t reg v (2 + rm.dispLen)))

/-- Derived (R174, R175; decisions D2 and D6): 0x8A and 0x8B copy the reg-field register to a register, or store its word at
the operand's address, computed from the registers before the instruction (R121). -/
def Obligations.ModRMStoresRegister : Prop :=
  ∀ (s : State) (reg : GReg) (rm : RmOp),
    (∀ r, rm = .reg r →
      (∃ t, exec (.movbRmReg rm reg) s = .next t ∧ LoadsGpr s t r (s.gpr.read reg) 2) ∧
      (∃ t, exec (.movRmReg rm reg) s = .next t ∧ LoadsGpr s t r (s.gpr.read reg) 2)) ∧
    (∀ a, s.resolve rm = .mem a → a + 1 < Config.cap →
      (∃ t, exec (.movbRmReg rm reg) s = .next t ∧ StoresWord s t a (s.gpr.read reg) (2 + rm.dispLen)) ∧
      (∃ t, exec (.movRmReg rm reg) s = .next t ∧ StoresWord s t a (s.gpr.read reg) (2 + rm.dispLen)))

/-- Derived (R115, R176, R177): 0x8C and 0x8E move between the segment register and the general register the same rm field
names (AX ES, CX CS, DX SS, BX DS), whatever the reg field holds. -/
def Obligations.SegmentMovesPairByRm : Prop :=
  ∀ (s : State) (ign : BitVec 3) (g : GReg) (r : SReg),
    ((g = .ax ∧ r = .es) ∨ (g = .cx ∧ r = .cs) ∨ (g = .dx ∧ r = .ss) ∨ (g = .bx ∧ r = .ds)) →
    (∃ t, exec (.movGprSeg ign r) s = .next t ∧ LoadsGpr s t g (s.seg.read r) 2) ∧
    (∃ t, exec (.movSegGpr ign r) s = .next t ∧ LoadsSeg s t r (s.gpr.read g) 2)

/-- Derived (R178, R179; decision D6): 0xA0 and 0xA1 load AX with the big-endian word at the direct address. -/
def Obligations.DirectLoadsAccumulator : Prop :=
  ∀ (s : State) (addr : Word) (a : Nat) (v : Word), s.eaLinear addr.toNat = a → a + 1 < Config.cap →
    v.toNat = 256 * (s.mem.read a).toNat + (s.mem.read (a + 1)).toNat →
    (∃ t, exec (.movbAxMem addr) s = .next t ∧ LoadsGpr s t .ax v 3) ∧
    (∃ t, exec (.movAxMem addr) s = .next t ∧ LoadsGpr s t .ax v 3)

/-- Derived (R180, R181; decision D6): 0xA2 and 0xA3 store AX big-endian at the direct address. -/
def Obligations.DirectStoresAccumulator : Prop :=
  ∀ (s : State) (addr : Word) (a : Nat), s.eaLinear addr.toNat = a → a + 1 < Config.cap →
    (∃ t, exec (.movbMemAx addr) s = .next t ∧ StoresWord s t a s.gpr.ax 3) ∧
    (∃ t, exec (.movMemAx addr) s = .next t ∧ StoresWord s t a s.gpr.ax 3)

/-- Derived (R198, R199; decisions D1, D5 and D6): 0xC6 and 0xC7 write the immediate, zero-extended for 0xC6, to a whole
register or as a big-endian word at the operand's address. -/
def Obligations.ImmediateStoresToRegisterOrMemory : Prop :=
  ∀ (s : State) (rm : RmOp) (b : Byte) (w v : Word), w.toNat = b.toNat →
    (∀ r, rm = .reg r →
      (∃ t, exec (.movbRmImm8 rm b) s = .next t ∧ LoadsGpr s t r w 3) ∧
      (∃ t, exec (.movRmImm16 rm v) s = .next t ∧ LoadsGpr s t r v 4)) ∧
    (∀ a, s.resolve rm = .mem a → a + 1 < Config.cap →
      (∃ t, exec (.movbRmImm8 rm b) s = .next t ∧ StoresWord s t a w (3 + rm.dispLen)) ∧
      (∃ t, exec (.movRmImm16 rm v) s = .next t ∧ StoresWord s t a v (4 + rm.dispLen)))

/-- Derived (R147, R210; decision D10): HLT sets RUN to Halted, moves IP by one and changes nothing else. -/
def Obligations.HaltStopsAndChangesNothingElse : Prop :=
  ∀ s : State, ∃ t, exec .hlt s = .next t ∧ t.run = .halted ∧ t.ip = s.nextIp 1 ∧
    (∀ q, t.gpr.read q = s.gpr.read q) ∧ (∀ q, t.seg.read q = s.seg.read q) ∧ t.flags = s.flags ∧
    (∀ a, t.mem.read a = s.mem.read a) ∧ t.params = s.params

/-- Derived (R55, R148, R224): an instruction whose memory word leaves memory aborts with E4 at the first byte outside. A
load, and a store at or above the capacity, change nothing; a store at the last byte leaves its high byte there. -/
def Obligations.DataAccessOutsideMemoryAborts : Prop :=
  ∀ (s : State) (i : Instr) (a : Nat),
    (loadAddr i s = some a → Config.cap ≤ a + 1 →
      ∃ t, exec i s = .next t ∧ AbortsUnchanged s t (.outOfRange (max a Config.cap) s.seg.cs s.ip (some i.opcode))) ∧
    (∀ v, storeOf i s = some (a, v) → Config.cap ≤ a →
      ∃ t, exec i s = .next t ∧ AbortsUnchanged s t (.outOfRange a s.seg.cs s.ip (some i.opcode))) ∧
    (∀ v, storeOf i s = some (a, v) → a + 1 = Config.cap →
      ∃ t, exec i s = .next t ∧ t.run = .aborted (.outOfRange Config.cap s.seg.cs s.ip (some i.opcode)) ∧
        (t.mem.read a).toNat = v.toNat / 256 ∧ (∀ b, b ≠ a → t.mem.read b = s.mem.read b) ∧
        t.gpr = s.gpr ∧ t.seg = s.seg ∧ t.flags = s.flags ∧ t.ip = s.ip ∧ t.params = s.params)

/-- Derived (R171, R226; decision D7): under the default `P_EA_SEG` every instruction completes from every state: RUN is
kept (HLT: Halted) and IP advances by its size. -/
def Obligations.UnsegmentedInstructionsComplete : Prop :=
  ∀ (s : State) (i : Instr), s.params.eaSeg = .unsegmented →
    ∃ t, exec i s = .next t ∧ t.ip = s.nextIp i.size ∧ (i = .hlt → t.run = .halted) ∧ (i ≠ .hlt → t.run = s.run)

/-- Derived (R170; decision D6): under the default `P_EA_SEG` a width-clear row without an immediate does exactly what its
width-set twin does. -/
def Obligations.WidthClearRowsMoveWords : Prop :=
  ∀ (s : State) (reg : GReg) (rm : RmOp) (addr : Word), s.params.eaSeg = .unsegmented →
    exec (.movbRegRm reg rm) s = exec (.movRegRm reg rm) s ∧ exec (.movbRmReg rm reg) s = exec (.movRmReg rm reg) s ∧
    exec (.movbAxMem addr) s = exec (.movAxMem addr) s ∧ exec (.movbMemAx addr) s = exec (.movMemAx addr) s

/-! ### Whole-machine rules -/

/-- Derived (R28, R154, R177): an instruction that changes a segment register is 0x8E naming it. -/
def Obligations.OnlySegmentMoveWritesSegmentRegisters : Prop :=
  ∀ (s t : State) (i : Instr) (r : SReg), exec i s = .next t → t.seg.read r ≠ s.seg.read r → ∃ ign, i = .movSegGpr ign r

/-- Derived (R154; R146, decision D9; R147, decision D10; R177; log 9): the code position changes only by sequential advance,
wrapped under `P_IP_WRAP16` and after HLT as well, or by a write to CS, which takes CX. -/
def Obligations.CodePositionChangesOnlyByAdvanceOrCsWrite : Prop :=
  ∀ (s t : State) (i : Instr), exec i s = .next t → t.clean →
    t.ip = s.nextIp i.size ∧
    (t.seg.cs = s.seg.cs ∨ ∃ ign, i = .movSegGpr ign .cs ∧ t.seg.cs = s.gpr.cx)

/-- Derived (R155, R258): after MOV CS, CX the next fetch is at CX*16 + IP, with IP advanced by 2. -/
def Obligations.CsWriteMovesNextFetch : Prop :=
  ∀ (s : State) (ign : BitVec 3) (k : Nat), s.params.ipWrap16 = false →
    ∃ t, exec (.movSegGpr ign .cs) s = .next t ∧ t.fetchAddr k = s.gpr.cx.toNat * 16 + (s.ip + 2 + k)

/-- Derived (R53, R68): an instruction changes no byte of memory but the two of the word it stores. -/
def Obligations.OnlyTheStoredWordChangesInMemory : Prop :=
  ∀ (s t : State) (i : Instr) (b : Nat), exec i s = .next t → t.mem.read b ≠ s.mem.read b →
    ∃ a v, storeOf i s = some (a, v) ∧ (b = a ∨ b = a + 1)

/-- Derived (R69, R257): the bytes an instruction stores are the bytes a later fetch at their addresses gives. -/
def Obligations.StoredBytesAreFetched : Prop :=
  ∀ (s : State) (i : Instr) (a k : Nat) (v : Word) (o : Option Byte), storeOf i s = some (a, v) → a + 1 < Config.cap →
    ∃ t, exec i s = .next t ∧ (t.fetchAddr k = a → t.fetch o k = .ok (hi v)) ∧
      (t.fetchAddr k = a + 1 → t.fetch o k = .ok (lo v))

/-- Derived (R28; decision D7): under the default `P_EA_SEG` the segment registers other than CS affect no instruction but
0x8C: registers, flags, IP, memory and run state come out the same whatever they hold. -/
def Obligations.DataSegmentsAffectOnlySegmentReads : Prop :=
  ∀ (s t : State) (i : Instr) (g : Segs), s.params.eaSeg = .unsegmented → g.cs = s.seg.cs →
    (∀ ign r, i ≠ .movGprSeg ign r) → exec i s = .next t →
    ∃ t', exec i { s with seg := g } = .next t' ∧ t'.gpr = t.gpr ∧ t'.flags = t.flags ∧ t'.ip = t.ip ∧ t'.mem = t.mem ∧
      t'.run = t.run ∧ t'.seg.cs = t.seg.cs

/-! ### Aborts -/

/-- R221: an opcode byte with no row in the table aborts with E1, and nothing changes. -/
def Obligations.UnrecognizedByteAborts : Prop :=
  ∀ (s : State) (opc : Byte), s.run = .running → s.getByte (s.fetchAddr 0) = .ok opc → s.params.lookup opc = none →
    ∃ t, step s = .next t ∧ AbortsUnchanged s t (.unrecognizedEncoding opc s.seg.cs s.ip)

/-- Derived (R114, R115, R124, R222; decisions D3 and D4): a ModRM byte the row refuses aborts with E2, and nothing
changes. -/
def Obligations.UnsupportedFormAborts : Prop :=
  ∀ (s : State) (opc m : Byte), s.run = .running → s.getByte (s.fetchAddr 0) = .ok opc →
    s.getByte (s.fetchAddr 1) = .ok m → s.fetchAddr 2 < Config.cap → s.fetchAddr 3 < Config.cap →
    s.params.lookup opc = defaultRow opc →
    (((opc = 0x8C ∨ opc = 0x8E) ∧ (m.toNat / 64 ≠ 3 ∨ 3 < m.toNat % 8)) ∨
      ((opc = 0xC6 ∨ opc = 0xC7) ∧ m.toNat / 8 % 8 ≠ 0)) →
    ∃ t, step s = .next t ∧ AbortsUnchanged s t (.unsupportedAddressingForm opc m s.seg.cs s.ip)

/-- Derived (R100, R101, R224, R227; decisions D11 and D13): fetching outside memory aborts with E4 at the first address
outside, in the order opcode byte, read-ahead bytes, consumed bytes beyond offset 3; nothing changes. -/
def Obligations.FetchOutsideMemoryAborts : Prop :=
  ∀ s : State, s.run = .running →
    (Config.cap ≤ s.fetchAddr 0 →
      ∃ t, step s = .next t ∧ AbortsUnchanged s t (.outOfRange (s.fetchAddr 0) s.seg.cs s.ip none)) ∧
    (∀ (opc : Byte) (d : Desc) (k : Nat), s.getByte (s.fetchAddr 0) = .ok opc → s.params.lookup opc = some d →
      d.shapeOk = true → 1 ≤ k → k ≤ 3 → (∀ j, j < k → s.fetchAddr j < Config.cap) → Config.cap ≤ s.fetchAddr k →
      ∃ t, step s = .next t ∧ AbortsUnchanged s t (.outOfRange (s.fetchAddr k) s.seg.cs s.ip (some opc))) ∧
    (∀ (i : Instr) (k : Nat), i.wf = true → s.params.lookup i.opcode = defaultRow i.opcode → 4 ≤ k →
      (∀ (j : Nat) (h : j < (encode i).length), j < k → s.getByte (s.fetchAddr j) = .ok (encode i)[j]) →
      k < (encode i).length → Config.cap ≤ s.fetchAddr k →
      ∃ t, step s = .next t ∧ AbortsUnchanged s t (.outOfRange (s.fetchAddr k) s.seg.cs s.ip (some i.opcode)))

/-- Derived (R148, R228; decision D7): an abort leaves everything but RUN as before the instruction, except that a word
write cut at the end of memory may leave the byte at 0x10FFEF; under the default `P_EA_SEG` there is no exception. -/
def Obligations.AbortChangesNothingElse : Prop :=
  ∀ (s t : State) (e : AbortError), s.run = .running → step s = .next t → t.run = .aborted e →
    t.gpr = s.gpr ∧ t.seg = s.seg ∧ t.flags = s.flags ∧ t.ip = s.ip ∧ t.params = s.params ∧
    (∀ b, b ≠ 0x10FFEF → t.mem.read b = s.mem.read b) ∧
    (s.params.eaSeg = .unsegmented → ∀ b, t.mem.read b = s.mem.read b)

/-- Derived (R149, R223; decision D19): Move rejects memory from memory, an immediate destination and an empty slot with
E3, changing nothing; it rejects no other pair. -/
def Obligations.MoveRejectsExactlyTheListedPairs : Prop :=
  ∀ (s : State) (opc : Byte) (n : Nat) (op1 op2 : Option Operand),
    ((op1 = none ∨ op2 = none ∨ (∃ v, op1 = some (.imm v)) ∨ ∃ a b, op1 = some (.mem a) ∧ op2 = some (.mem b)) →
      AbortsUnchanged s (s.move opc n op1 op2) (.invalidOperandCombination opc s.seg.cs s.ip op1 op2)) ∧
    ((∃ src r, op1 = some (.reg r) ∧ op2 = some src) ∨ (∃ a r, op1 = some (.mem a) ∧ op2 = some (.reg r)) ∨
      (∃ a v, op1 = some (.mem a) ∧ op2 = some (.imm v)) → s.run = .running →
      ∀ o c p x y, (s.move opc n op1 op2).run ≠ .aborted (.invalidOperandCombination o c p x y))

/-- Derived (R171, R226): no instruction raises E3. -/
def Obligations.NoInstructionRaisesInvalidOperands : Prop :=
  ∀ (s t : State) (i : Instr), s.run = .running → exec i s = .next t →
    ∀ o c p x y, t.run ≠ .aborted (.invalidOperandCombination o c p x y)

/-! ### Parameters of the table -/

/-- Derived (R96; decision D6): with `P_BYTE_ROWS` false the width-clear bytes of the default table abort with E1 and
change nothing, and the other bytes keep their rows. -/
def Obligations.ByteRowsParameterRemovesWidthClearRows : Prop :=
  ∀ (s : State) (opc : Byte), s.run = .running → s.params.table = defaultTable → s.params.byteRows = false →
    s.getByte (s.fetchAddr 0) = .ok opc →
    (opc ∈ ([0x88, 0x8A, 0xA0, 0xA2, 0xB0, 0xB1, 0xB2, 0xB3, 0xB4, 0xB5, 0xB6, 0xB7, 0xC6] : List Byte) →
      ∃ t, step s = .next t ∧ AbortsUnchanged s t (.unrecognizedEncoding opc s.seg.cs s.ip)) ∧
    (opc ∈ ([0x89, 0x8B, 0x8C, 0x8E, 0xA1, 0xA3, 0xB8, 0xB9, 0xBA, 0xBB, 0xBC, 0xBD, 0xBE, 0xBF, 0xC7, 0xF4] : List Byte) →
      s.params.lookup opc = defaultRow opc ∧ (defaultRow opc).isSome)

/-- Derived (R84, R116, R117, R130): a row of shape W R I at any opcode byte loads the register its low three bits name
with the immediate, of one byte (zero-extended, D5) or two by its bit 3, and moves IP by the bytes consumed. -/
def Obligations.RegisterImmediateRowRunsAtAnyByte : Prop :=
  ∀ (s : State) (opc b1 b2 : Byte) (n : Nat), s.run = .running → s.getByte (s.fetchAddr 0) = .ok opc →
    s.getByte (s.fetchAddr 1) = .ok b1 → s.getByte (s.fetchAddr 2) = .ok b2 → s.fetchAddr 3 < Config.cap →
    s.params.lookup opc = some (rowRegImm opc n) →
    (opc.getLsbD 3 = false → ∀ v : Word, v.toNat = b1.toNat →
      ∃ t, step s = .next t ∧ LoadsGpr s t (GReg.ofIndex (BitVec.ofNat 3 opc.toNat)) v 2) ∧
    (opc.getLsbD 3 = true → ∀ v : Word, v.toNat = b1.toNat + 256 * b2.toNat →
      ∃ t, step s = .next t ∧ LoadsGpr s t (GReg.ofIndex (BitVec.ofNat 3 opc.toNat)) v 3)
end

