-- ==== Sys2Proof/Laws/Decode.lean ====
section
/-! SUPPORT. Small laws of fields, register names and the encoder. -/

namespace Sys2Proof

@[simp] theorem GReg.ofIndex_index (r : GReg) : GReg.ofIndex r.index = r := by cases r <;> rfl
@[simp] theorem EaBase.ofIndex_index (b : EaBase) : EaBase.ofIndex b.index = b := by cases b <;> rfl
@[simp] theorem SReg.ofIndex?_index (r : SReg) : SReg.ofIndex? r.index = some r := by cases r <;> rfl
@[simp] theorem GReg.index_ofIndex (i : BitVec 3) : (GReg.ofIndex i).index = i := by revert i; decide
@[simp] theorem EaBase.index_ofIndex (i : BitVec 3) : (EaBase.ofIndex i).index = i := by revert i; decide

/-- A named segment register has the index it was named by, and the general register of that index is its pair (R115). -/
theorem SReg.index_of_ofIndex? {i : BitVec 3} {r : SReg} (h : SReg.ofIndex? i = some r) : r.index = i := by
  revert r; revert i; decide

/-- A base other than BP, or any base of a well-formed `.base`, is not named by rm 6 (R106). -/
theorem EaBase.index_ne_six {b : EaBase} (h : RmOp.wf (.base b) = true) : b.index ≠ 6#3 := by
  cases b <;> first | decide | cases h

@[simp] theorem modField_modRmByte (mod : BitVec 2) (reg rm : BitVec 3) : modField (modRmByte mod reg rm) = mod := by
  revert mod reg rm; decide
@[simp] theorem regField_modRmByte (mod : BitVec 2) (reg rm : BitVec 3) : regField (modRmByte mod reg rm) = reg := by
  revert mod reg rm; decide
@[simp] theorem rmField_modRmByte (mod : BitVec 2) (reg rm : BitVec 3) : rmField (modRmByte mod reg rm) = rm := by
  revert mod reg rm; decide
@[simp] theorem modRmByte_fields (m : Byte) : modRmByte (modField m) (regField m) (rmField m) = m := by
  revert m; decide

/-- Bits of a two-byte field: the first byte below the second (R59). -/
theorem getLsbD_le16 (a b : Byte) (i : Nat) :
    (le16 a b).getLsbD i = if i < 8 then a.getLsbD i else b.getLsbD (i - 8) := by
  have h := BitVec.getLsbD_append (x := b) (y := a) (i := i)
  simpa only [le16, Bool.cond_decide] using h

@[simp] theorem fieldLo_le16 (a b : Byte) : fieldLo (le16 a b) = a := by
  apply BitVec.eq_of_getLsbD_eq
  intro i h
  simp only [fieldLo, BitVec.getLsbD_extractLsb', getLsbD_le16, h, Nat.zero_add, decide_true, Bool.true_and, if_true]

@[simp] theorem fieldHi_le16 (a b : Byte) : fieldHi (le16 a b) = b := by
  apply BitVec.eq_of_getLsbD_eq
  intro i h
  simp only [fieldHi, BitVec.getLsbD_extractLsb', getLsbD_le16, h, show ¬ 8 + i < 8 by omega, decide_true,
    Bool.true_and, if_false, Nat.add_sub_cancel_left]

@[simp] theorem le16_fields (w : Word) : le16 (fieldLo w) (fieldHi w) = w := by
  apply BitVec.eq_of_getLsbD_eq
  intro i h
  rw [getLsbD_le16]
  split
  · rename_i h8
    simp only [fieldLo, BitVec.getLsbD_extractLsb', h8, Nat.zero_add, decide_true, Bool.true_and]
  · rename_i h8
    simp only [fieldHi, BitVec.getLsbD_extractLsb', show i - 8 < 8 by omega, show 8 + (i - 8) = i by omega, decide_true,
      Bool.true_and]

/-- The ModRM byte and displacement of a side (R120). -/
@[simp] theorem RmOp.length_encode (reg : BitVec 3) (rm : RmOp) : (rm.encode reg).length = 1 + rm.dispLen := by
  cases rm <;> rfl

@[simp] theorem length_encodeWord (w : Word) : (encodeWord w).length = 2 := rfl

theorem RmOp.dispLen_le (rm : RmOp) : rm.dispLen ≤ 2 := by cases rm <;> simp [RmOp.dispLen]

/-- Every row of the default table has a decoder path (R97). -/
theorem defaultTable_shapeOk : ∀ d ∈ defaultTable, d.shapeOk = true := by decide

/-- A row found by its byte is in the table and has that byte (R88). -/
theorem defaultRow_byte {opc : Byte} {d : Desc} (h : defaultRow opc = some d) : d ∈ defaultTable ∧ d.byte = opc :=
  ⟨List.mem_of_find?_eq_some h, by simpa using List.find?_some h⟩

end Sys2Proof
end

