-- ==== Sys2Proof/Laws/Memory.lean ====
section
/-! SUPPORT. The byte store: a read after a write, and the canonical form kept by every memory operation. -/

namespace Sys2Proof.Machine

/-! ### Reads -/

theorem Memory.read_nil (a : Nat) : Memory.read [] a = Config.unlistedByte := rfl

theorem Memory.read_cons (x : Nat) (v : Byte) (m : Memory) (a : Nat) :
    Memory.read ((x, v) :: m) a = if x = a then v else Memory.read m a := rfl

theorem Memory.read_without_same (m : Memory) (a : Nat) : (m.without a).read a = Config.unlistedByte := by
  induction m with
  | nil => rfl
  | cons c m ih =>
    obtain ⟨x, v⟩ := c
    by_cases h : x = a
    · simpa [Memory.without, h] using ih
    · have : (Memory.without ((x, v) :: m) a) = (x, v) :: Memory.without m a := by simp [Memory.without, h]
      rw [this, Memory.read_cons, if_neg h, ih]

theorem Memory.read_without_other (m : Memory) {a b : Nat} (hb : b ≠ a) : (m.without a).read b = m.read b := by
  induction m with
  | nil => rfl
  | cons c m ih =>
    obtain ⟨x, v⟩ := c
    by_cases h : x = a
    · have : (Memory.without ((x, v) :: m) a) = Memory.without m a := by simp [Memory.without, h]
      rw [this, ih, Memory.read_cons, if_neg (by omega)]
    · have : (Memory.without ((x, v) :: m) a) = (x, v) :: Memory.without m a := by simp [Memory.without, h]
      rw [this, Memory.read_cons, Memory.read_cons, ih]

theorem Memory.read_place_other (m : Memory) {a b : Nat} (v : Byte) (hb : b ≠ a) : (m.place a v).read b = m.read b := by
  induction m with
  | nil => simp [Memory.place, Memory.read, Ne.symm hb]
  | cons c m ih =>
    obtain ⟨x, w⟩ := c
    simp only [Memory.place]
    split
    · rw [Memory.read_cons, if_neg (Ne.symm hb)]
    · rw [Memory.read_cons, Memory.read_cons, ih]

theorem Memory.read_place_same (m : Memory) (a : Nat) (v : Byte) (h : ∀ c ∈ m, c.1 ≠ a) : (m.place a v).read a = v := by
  induction m with
  | nil => simp [Memory.place, Memory.read]
  | cons c m ih =>
    obtain ⟨x, w⟩ := c
    simp only [Memory.place]
    split
    · simp [Memory.read]
    · rw [Memory.read_cons, if_neg (h (x, w) (by simp)), ih fun c hc => h c (by simp [hc])]

/-- A read after a write (R66): the value written at the cell written, the old value everywhere else (R53). -/
@[simp] theorem Memory.read_write (m : Memory) (a : Nat) (v : Byte) (b : Nat) :
    (m.write a v).read b = if b = a then v else m.read b := by
  unfold Memory.write
  by_cases hb : b = a
  · subst hb
    split
    · rename_i hv; simp [Memory.read_without_same, hv]
    · simpa using Memory.read_place_same _ b v fun c hc => by simpa [Memory.without] using (List.mem_filter.1 hc).2
  · split <;> simp [hb, Memory.read_place_other, Memory.read_without_other]

/-! ### The canonical form -/

theorem Memory.wfFrom_cons (low x : Nat) (v : Byte) (m : Memory) :
    Memory.wfFrom low ((x, v) :: m) = true ↔
      low ≤ x ∧ x < Config.cap ∧ v ≠ Config.unlistedByte ∧ Memory.wfFrom (x + 1) m = true := by
  simp [Memory.wfFrom, and_assoc]

theorem Memory.wfFrom_mono {low low' : Nat} {m : Memory} (h : low' ≤ low) (w : Memory.wfFrom low m = true) :
    Memory.wfFrom low' m = true := by
  cases m with
  | nil => rfl
  | cons c m =>
    obtain ⟨x, v⟩ := c
    rw [Memory.wfFrom_cons] at w ⊢
    exact ⟨by omega, w.2⟩

theorem Memory.wfFrom_without {low : Nat} {m : Memory} (a : Nat) (w : Memory.wfFrom low m = true) :
    Memory.wfFrom low (m.without a) = true := by
  induction m generalizing low with
  | nil => rfl
  | cons c m ih =>
    obtain ⟨x, v⟩ := c
    rw [Memory.wfFrom_cons] at w
    by_cases h : x = a
    · have e : (Memory.without ((x, v) :: m) a) = Memory.without m a := by simp [Memory.without, h]
      rw [e]
      exact ih (Memory.wfFrom_mono (by omega) w.2.2.2)
    · have e : (Memory.without ((x, v) :: m) a) = (x, v) :: Memory.without m a := by simp [Memory.without, h]
      rw [e, Memory.wfFrom_cons]
      exact ⟨w.1, w.2.1, w.2.2.1, ih w.2.2.2⟩

theorem Memory.wfFrom_place {low a : Nat} {v : Byte} {m : Memory} (ha : low ≤ a) (hc : a < Config.cap)
    (hv : v ≠ Config.unlistedByte) (hm : ∀ c ∈ m, c.1 ≠ a) (w : Memory.wfFrom low m = true) :
    Memory.wfFrom low (m.place a v) = true := by
  induction m generalizing low with
  | nil => simp [Memory.place, Memory.wfFrom, ha, hc, hv]
  | cons c m ih =>
    obtain ⟨x, u⟩ := c
    have hx : x ≠ a := hm (x, u) (by simp)
    rw [Memory.wfFrom_cons] at w
    simp only [Memory.place]
    split
    · rw [Memory.wfFrom_cons, Memory.wfFrom_cons]
      exact ⟨ha, hc, hv, by omega, w.2⟩
    · rw [Memory.wfFrom_cons]
      exact ⟨w.1, w.2.1, w.2.2.1, ih (by omega) (fun c hc => hm c (by simp [hc])) w.2.2.2⟩

/-- A write inside memory keeps the canonical form. -/
theorem Memory.wf_write {m : Memory} {a : Nat} (v : Byte) (ha : a < Config.cap) (w : m.wf = true) :
    (m.write a v).wf = true := by
  unfold Memory.write Memory.wf at *
  split
  · exact Memory.wfFrom_without a w
  · rename_i hv
    exact Memory.wfFrom_place (by omega) ha hv (fun c hc => by simpa [Memory.without] using (List.mem_filter.1 hc).2)
      (Memory.wfFrom_without a w)

theorem Memory.wf_nil : Memory.wf [] = true := rfl

/-- Cells read at addresses below the first one of a canonical list are unlisted. -/
theorem Memory.read_below {low : Nat} {m : Memory} (w : Memory.wfFrom low m = true) {a : Nat} (h : a < low) :
    m.read a = Config.unlistedByte := by
  induction m generalizing low with
  | nil => rfl
  | cons c m ih =>
    obtain ⟨x, v⟩ := c
    rw [Memory.wfFrom_cons] at w
    rw [Memory.read_cons, if_neg (by omega), ih w.2.2.2 (by omega)]

/-! ### The accessors keep the form -/

theorem setByte_wf {s : State} (b : Byte) (a : Nat) (w : s.mem.wf = true) : (s.setByte b a).1.mem.wf = true := by
  unfold State.setByte
  split
  · rename_i h; exact Memory.wf_write b h w
  · exact w

theorem setWord_wf {s : State} (v : Word) (a : Nat) (w : s.mem.wf = true) : (s.setWord v a).1.mem.wf = true := by
  unfold State.setWord
  have h1 := setByte_wf (hi v) a w
  split
  · rename_i s' e h; rw [h] at h1; exact h1
  · rename_i s' h; rw [h] at h1; exact setByte_wf (lo v) (a + 1) h1

/-! ### The loader's memory (R251) -/

theorem Memory.wf_ofCells (cs : List Host.Cell) : (Memory.ofCells cs).wf = true := by
  induction cs with
  | nil => rfl
  | cons c cs ih =>
    obtain ⟨a, b⟩ := c
    simp only [Memory.ofCells]
    split
    · rename_i h; exact Memory.wf_write b h ih
    · exact ih

theorem Memory.read_ofCells (cs : List Host.Cell) {a : Nat} (h : a < Config.cap) :
    (Memory.ofCells cs).read a = Memory.read cs a := by
  induction cs with
  | nil => rfl
  | cons c cs ih =>
    obtain ⟨x, b⟩ := c
    simp only [Memory.ofCells]
    split
    · rw [Memory.read_write, Memory.read_cons, ih]
      by_cases e : a = x
      · simp [e]
      · simp [e, Ne.symm e]
    · rw [ih, Memory.read_cons, if_neg (by omega)]

theorem Memory.wf_copy {m : Memory} {bs : List Byte} {a : Nat} (h : a + bs.length ≤ Config.cap) (w : m.wf = true) :
    (m.copy a bs).wf = true := by
  induction bs generalizing m a with
  | nil => exact w
  | cons b bs ih =>
    simp only [List.length_cons] at h
    exact ih (by omega) (Memory.wf_write b (by omega) w)

/-- The cells of a copied image hold its bytes, the others are as they were (R251). -/
theorem Memory.read_copy (m : Memory) (bs : List Byte) (a x : Nat) :
    (m.copy a bs).read x = if h : a ≤ x ∧ x - a < bs.length then bs[x - a]'h.2 else m.read x := by
  induction bs generalizing m a with
  | nil => simp [Memory.copy]
  | cons b bs ih =>
    rw [Memory.copy, ih]
    by_cases hx : x = a
    · subst hx
      simp
    · by_cases hle : a ≤ x
      · obtain ⟨j, rfl⟩ : ∃ j, x = a + 1 + j := ⟨x - (a + 1), by omega⟩
        simp [show a + 1 + j - a = j + 1 by omega, show a + 1 + j ≠ a by omega, show a ≤ a + 1 + j by omega]
      · simp [hx, hle, show ¬ a + 1 ≤ x by omega]

/-- What a launch that is not refused gives (R97, R252). -/
theorem launch_eq_ok {x : LaunchArgs} {s : State} (h : launch x = .ok s) :
    tableOk x.params.table = true ∧ x.image.length ≤ imageLimit ∧ s = loaderInit x := by
  unfold launch at h
  split at h
  · cases h
  · split at h
    · cases h
    · cases h
      simp_all

end Sys2Proof.Machine
end

