-- ==== Sys2Proof/Laws/State.lean ====
section
/-! SUPPORT. One lemma per field per update of State, and the register-file laws, so that no later proof unfolds a record
update. -/

namespace Sys2Proof.Machine

/-! ### Register files -/

@[simp] theorem Gprs.read_write_same (g : Gprs) (r : GReg) (v : Word) : (g.write r v).read r = v := by
  cases r <;> rfl

theorem Gprs.read_write_other (g : Gprs) {q r : GReg} (v : Word) (h : q ≠ r) : (g.write r v).read q = g.read q := by
  cases q <;> cases r <;> first | rfl | exact absurd rfl h

@[simp] theorem Segs.read_write_same (g : Segs) (r : SReg) (v : Word) : (g.write r v).read r = v := by
  cases r <;> rfl

theorem Segs.read_write_other (g : Segs) {q r : SReg} (v : Word) (h : q ≠ r) : (g.write r v).read q = g.read q := by
  cases q <;> cases r <;> first | rfl | exact absurd rfl h

@[simp] theorem readReg_writeReg_same (s : State) (r : RegRef) (v : Word) : (s.writeReg r v).readReg r = v := by
  cases r <;> simp [State.writeReg, State.readReg]

theorem readReg_writeReg_other (s : State) {q r : RegRef} (v : Word) (h : q ≠ r) :
    (s.writeReg r v).readReg q = s.readReg q := by
  cases r with
  | gen r =>
    cases q with
    | gen q => exact Gprs.read_write_other _ _ fun e => h (by rw [e])
    | seg q => rfl
  | seg r =>
    cases q with
    | gen q => rfl
    | seg q => exact Segs.read_write_other _ _ fun e => h (by rw [e])

@[simp] theorem readReg_gen (s : State) (r : GReg) : s.readReg (.gen r) = s.gpr.read r := rfl
@[simp] theorem readReg_seg (s : State) (r : SReg) : s.readReg (.seg r) = s.seg.read r := rfl
@[simp] theorem segs_read_cs (g : Segs) : g.read .cs = g.cs := rfl

/-! ### Fields after a register write -/

@[simp] theorem writeReg_gen_gpr (s : State) (r : GReg) (v : Word) : (s.writeReg (.gen r) v).gpr = s.gpr.write r v := rfl
@[simp] theorem writeReg_gen_seg (s : State) (r : GReg) (v : Word) : (s.writeReg (.gen r) v).seg = s.seg := rfl
@[simp] theorem writeReg_seg_seg (s : State) (r : SReg) (v : Word) : (s.writeReg (.seg r) v).seg = s.seg.write r v := rfl
@[simp] theorem writeReg_seg_gpr (s : State) (r : SReg) (v : Word) : (s.writeReg (.seg r) v).gpr = s.gpr := rfl
@[simp] theorem writeReg_flags (s : State) (r : RegRef) (v : Word) : (s.writeReg r v).flags = s.flags := by cases r <;> rfl
@[simp] theorem writeReg_ip (s : State) (r : RegRef) (v : Word) : (s.writeReg r v).ip = s.ip := by cases r <;> rfl
@[simp] theorem writeReg_mem (s : State) (r : RegRef) (v : Word) : (s.writeReg r v).mem = s.mem := by cases r <;> rfl
@[simp] theorem writeReg_run (s : State) (r : RegRef) (v : Word) : (s.writeReg r v).run = s.run := by cases r <;> rfl
@[simp] theorem writeReg_params (s : State) (r : RegRef) (v : Word) : (s.writeReg r v).params = s.params := by
  cases r <;> rfl

/-! ### Fields after an advance, an abort, a halt -/

@[simp] theorem advance_gpr (s : State) (n : Nat) : (s.advance n).gpr = s.gpr := rfl
@[simp] theorem advance_seg (s : State) (n : Nat) : (s.advance n).seg = s.seg := rfl
@[simp] theorem advance_flags (s : State) (n : Nat) : (s.advance n).flags = s.flags := rfl
@[simp] theorem advance_ip (s : State) (n : Nat) : (s.advance n).ip = s.codeOffset (s.ip + n) := rfl
@[simp] theorem advance_mem (s : State) (n : Nat) : (s.advance n).mem = s.mem := rfl
@[simp] theorem advance_run (s : State) (n : Nat) : (s.advance n).run = s.run := rfl
@[simp] theorem advance_params (s : State) (n : Nat) : (s.advance n).params = s.params := rfl

@[simp] theorem raise_gpr (s : State) (e : AbortError) : (s.raise e).gpr = s.gpr := rfl
@[simp] theorem raise_seg (s : State) (e : AbortError) : (s.raise e).seg = s.seg := rfl
@[simp] theorem raise_flags (s : State) (e : AbortError) : (s.raise e).flags = s.flags := rfl
@[simp] theorem raise_ip (s : State) (e : AbortError) : (s.raise e).ip = s.ip := rfl
@[simp] theorem raise_mem (s : State) (e : AbortError) : (s.raise e).mem = s.mem := rfl
@[simp] theorem raise_run (s : State) (e : AbortError) : (s.raise e).run = .aborted e := rfl
@[simp] theorem raise_params (s : State) (e : AbortError) : (s.raise e).params = s.params := rfl

@[simp] theorem halt_gpr (s : State) (n : Nat) : (s.halt n).gpr = s.gpr := rfl
@[simp] theorem halt_seg (s : State) (n : Nat) : (s.halt n).seg = s.seg := rfl
@[simp] theorem halt_flags (s : State) (n : Nat) : (s.halt n).flags = s.flags := rfl
@[simp] theorem halt_ip (s : State) (n : Nat) : (s.halt n).ip = s.codeOffset (s.ip + n) := rfl
@[simp] theorem halt_mem (s : State) (n : Nat) : (s.halt n).mem = s.mem := rfl
@[simp] theorem halt_run (s : State) (n : Nat) : (s.halt n).run = .halted := rfl
@[simp] theorem halt_params (s : State) (n : Nat) : (s.halt n).params = s.params := rfl

/-- The code offset depends on the parameters alone. -/
theorem codeOffset_of_params {s t : State} (h : t.params = s.params) (off : Nat) : t.codeOffset off = s.codeOffset off := by
  simp [State.codeOffset, h]

/-- Without `P_IP_WRAP16` an offset is used as it is (R146). -/
theorem codeOffset_nowrap {s : State} (h : s.params.ipWrap16 = false) (off : Nat) : s.codeOffset off = off := by
  simp [State.codeOffset, h]

end Sys2Proof.Machine
end

