-- ==== Sys2Proof/Laws/Ops.lean ====
section
/-! SUPPORT. What the accessors and the Move contract can do, said once. -/

namespace Sys2Proof.Machine

/-! ### Byte views (R22, R23) -/

/-- Bits of a two-byte word: the second byte below the first. -/
theorem getLsbD_be16 (a b : Byte) (i : Nat) :
    (be16 a b).getLsbD i = if i < 8 then b.getLsbD i else a.getLsbD (i - 8) := by
  have h := BitVec.getLsbD_append (x := a) (y := b) (i := i)
  simpa only [be16, Bool.cond_decide] using h

@[simp] theorem hi_be16 (a b : Byte) : hi (be16 a b) = a := by
  apply BitVec.eq_of_getLsbD_eq
  intro i h
  simp only [hi, BitVec.getLsbD_extractLsb', getLsbD_be16, h, show ¬ 8 + i < 8 by omega, decide_true, Bool.true_and,
    if_false, Nat.add_sub_cancel_left]

@[simp] theorem lo_be16 (a b : Byte) : lo (be16 a b) = b := by
  apply BitVec.eq_of_getLsbD_eq
  intro i h
  simp only [lo, BitVec.getLsbD_extractLsb', getLsbD_be16, h, Nat.zero_add, decide_true, Bool.true_and, if_true]

@[simp] theorem be16_hi_lo (v : Word) : be16 (hi v) (lo v) = v := by
  apply BitVec.eq_of_getLsbD_eq
  intro i h
  rw [getLsbD_be16]
  split
  · rename_i h8
    simp only [lo, BitVec.getLsbD_extractLsb', h8, Nat.zero_add, decide_true, Bool.true_and]
  · rename_i h8
    simp only [hi, BitVec.getLsbD_extractLsb', show i - 8 < 8 by omega, show 8 + (i - 8) = i by omega, decide_true,
      Bool.true_and]

theorem setLo_eq (r : Word) (b : Byte) : setLo r b = be16 (hi r) b := rfl
theorem setHi_eq (r : Word) (b : Byte) : setHi r b = be16 b (lo r) := rfl

/-! ### Byte and word access -/

theorem getByte_ok {s : State} {a : Nat} (h : a < Config.cap) : s.getByte a = .ok (s.mem.read a) := by
  simp [State.getByte, h]

theorem getByte_error {s : State} {a : Nat} (h : Config.cap ≤ a) : s.getByte a = .error a := by
  simp [State.getByte, Nat.not_lt.2 h]

theorem getByte_eq_ok {s : State} {a : Nat} {b : Byte} : s.getByte a = .ok b ↔ a < Config.cap ∧ s.mem.read a = b := by
  unfold State.getByte
  split <;> simp_all

theorem getWord_ok {s : State} {a : Nat} (h : a + 1 < Config.cap) :
    s.getWord a = .ok (be16 (s.mem.read a) (s.mem.read (a + 1))) := by
  simp [State.getWord, getByte_ok h, getByte_ok (show a < Config.cap by omega)]

/-- A word read that runs out of memory fails at the first byte outside it (R55). -/
theorem getWord_error {s : State} {a : Nat} (h : Config.cap ≤ a + 1) : s.getWord a = .error (max a Config.cap) := by
  by_cases ha : Config.cap ≤ a
  · simp [State.getWord, getByte_error ha, Nat.max_eq_left ha]
  · have e : a + 1 = Config.cap := by omega
    rw [e] at h
    simp [State.getWord, getByte_ok (Nat.not_le.1 ha), e, getByte_error h, Nat.max_eq_right (by omega : a ≤ Config.cap)]

/-- A word write inside memory (R54): both bytes, nothing cut. -/
theorem setWord_ok {s : State} (v : Word) {a : Nat} (h : a + 1 < Config.cap) :
    s.setWord v a = ({ s with mem := (s.mem.write a (hi v)).write (a + 1) (lo v) }, none) := by
  simp [State.setWord, State.setByte, h, show a < Config.cap by omega]

/-- A word write at or above the capacity changes nothing (R55). -/
theorem setWord_above {s : State} (v : Word) {a : Nat} (h : Config.cap ≤ a) : s.setWord v a = (s, some a) := by
  simp [State.setWord, State.setByte, Nat.not_lt.2 h]

/-- A word write at the last byte of memory writes its high byte and is cut (R55). -/
theorem setWord_last {s : State} (v : Word) {a : Nat} (h : a + 1 = Config.cap) :
    s.setWord v a = ({ s with mem := s.mem.write a (hi v) }, some (a + 1)) := by
  simp [State.setWord, State.setByte, show a < Config.cap by omega, h]

/-- What a word write can do: it completes, it is cut after its first byte, or it does nothing. -/
theorem setWord_cases (s : State) (v : Word) (a : Nat) :
    (a + 1 < Config.cap ∧ s.setWord v a = ({ s with mem := (s.mem.write a (hi v)).write (a + 1) (lo v) }, none)) ∨
    (a + 1 = Config.cap ∧ s.setWord v a = ({ s with mem := s.mem.write a (hi v) }, some (a + 1))) ∨
    (Config.cap ≤ a ∧ s.setWord v a = (s, some a)) := by
  rcases Nat.lt_trichotomy (a + 1) Config.cap with h | h | h
  · exact .inl ⟨h, setWord_ok v h⟩
  · exact .inr (.inl ⟨h, setWord_last v h⟩)
  · exact .inr (.inr ⟨by omega, setWord_above v (by omega)⟩)

/-- A word write changes memory alone. -/
theorem setWord_fields (s : State) (v : Word) (a : Nat) : ∃ m, (s.setWord v a).1 = { s with mem := m } := by
  rcases setWord_cases s v a with ⟨-, h⟩ | ⟨-, h⟩ | ⟨-, h⟩ <;> rw [h]
  · exact ⟨_, rfl⟩
  · exact ⟨_, rfl⟩
  · exact ⟨s.mem, rfl⟩

/-! ### The Move contract (R149, R150) -/

/-- What a Move can do: a rejected pair, a failed read, a completed write and the advance, or a cut write. -/
theorem move_cases (opc : Byte) (n : Nat) (op1 op2 : Option Operand) (s : State) :
    (movePair op1 op2 = none ∧
      s.move opc n op1 op2 = s.raise (.invalidOperandCombination opc s.seg.cs s.ip op1 op2)) ∨
    (∃ dst src, movePair op1 op2 = some (dst, src) ∧
      ((∃ a, s.readOperand src = .error a ∧ s.move opc n op1 op2 = s.raise (s.outOfRangeAt (some opc) a)) ∨
       (∃ v, s.readOperand src = .ok v ∧
        ((∃ t, s.writeOperand dst v = (t, none) ∧ s.move opc n op1 op2 = t.advance n) ∨
         (∃ t a, s.writeOperand dst v = (t, some a) ∧
            s.move opc n op1 op2 = t.raise (s.outOfRangeAt (some opc) a)))))) := by
  unfold State.move
  cases hp : movePair op1 op2 with
  | none => exact .inl ⟨rfl, rfl⟩
  | some p =>
    obtain ⟨dst, src⟩ := p
    refine .inr ⟨dst, src, rfl, ?_⟩
    cases hr : s.readOperand src with
    | error a => exact .inl ⟨a, rfl, by simp [hr]⟩
    | ok v =>
      refine .inr ⟨v, rfl, ?_⟩
      rcases hw : s.writeOperand dst v with ⟨t, o⟩
      cases o with
      | none => exact .inl ⟨t, rfl, by simp [hr, hw]⟩
      | some a => exact .inr ⟨t, a, rfl, by simp [hr, hw]⟩

/-- An allowed pair is the pair of the slots (R149). -/
theorem movePair_eq_some {op1 op2 : Option Operand} {dst src : Operand} (h : movePair op1 op2 = some (dst, src)) :
    op1 = some dst ∧ op2 = some src := by
  unfold movePair at h
  split at h <;> simp_all

/-- A Move into a register from a value that can be read completes. -/
theorem move_reg {s : State} {src : Operand} {v : Word} (opc : Byte) (n : Nat) (r : RegRef)
    (h : s.readOperand src = .ok v) : s.move opc n (some (.reg r)) (some src) = (s.writeReg r v).advance n := by
  simp [State.move, movePair, h, State.writeOperand]

/-- A Move of a register into memory. -/
theorem move_mem_reg (opc : Byte) (n : Nat) (a : Nat) (r : RegRef) {s : State} (h : a + 1 < Config.cap) :
    s.move opc n (some (.mem a)) (some (.reg r)) = State.advance
      { s with mem := (s.mem.write a (hi (s.readReg r))).write (a + 1) (lo (s.readReg r)) } n := by
  simp [State.move, movePair, State.readOperand, State.writeOperand, setWord_ok _ h]

/-- A Move of an immediate into memory. -/
theorem move_mem_imm (opc : Byte) (n : Nat) (a : Nat) (v : Word) {s : State} (h : a + 1 < Config.cap) :
    s.move opc n (some (.mem a)) (some (.imm v)) = State.advance
      { s with mem := (s.mem.write a (hi v)).write (a + 1) (lo v) } n := by
  simp [State.move, movePair, State.readOperand, State.writeOperand, setWord_ok _ h]

/-- A Move keeps flags and parameters, whatever it does (R151). -/
theorem move_flags_params (opc : Byte) (n : Nat) (op1 op2 : Option Operand) (s : State) :
    (s.move opc n op1 op2).flags = s.flags ∧ (s.move opc n op1 op2).params = s.params := by
  have hw : ∀ dst v, (s.writeOperand dst v).1.flags = s.flags ∧ (s.writeOperand dst v).1.params = s.params := by
    intro dst v
    cases dst with
    | reg r => simp [State.writeOperand]
    | imm w => simp [State.writeOperand]
    | mem a =>
      obtain ⟨m, h⟩ := setWord_fields s v a
      simp [State.writeOperand, h]
  rcases move_cases opc n op1 op2 s with ⟨-, h⟩ | ⟨dst, src, -, ⟨a, -, h⟩ | ⟨v, -, ⟨t, ht, h⟩ | ⟨t, a, ht, h⟩⟩⟩
  · simp [h]
  · simp [h]
  · simpa [h, ht] using hw dst v
  · simpa [h, ht] using hw dst v

end Sys2Proof.Machine
end

