-- ==== Sys2Proof/Laws/Step.lean ====
section
/-! SUPPORT. What a step can do, said once, and the fetch laws it rests on. -/

namespace Sys2Proof.Machine

/-! ### Fetch -/

theorem fetch_ok {s : State} {k : Nat} (o : Option Byte) (h : s.fetchAddr k < Config.cap) :
    s.fetch o k = .ok (s.mem.read (s.fetchAddr k)) := by
  simp [State.fetch, getByte_ok h]

theorem fetch_error {s : State} {k : Nat} (o : Option Byte) (h : Config.cap ≤ s.fetchAddr k) :
    s.fetch o k = .error (.outOfRange (s.fetchAddr k) s.seg.cs s.ip o) := by
  simp [State.fetch, getByte_error h, State.outOfRangeAt]

theorem readAhead_ok {s : State} (opc : Byte) (h1 : s.fetchAddr 1 < Config.cap) (h2 : s.fetchAddr 2 < Config.cap)
    (h3 : s.fetchAddr 3 < Config.cap) : s.readAhead opc = .ok () := by
  simp [State.readAhead, fetch_ok _ h1, fetch_ok _ h2, fetch_ok _ h3]

/-- The three read-ahead bytes are in range whenever reading ahead succeeds (R101). -/
theorem readAhead_eq_ok {s : State} {opc : Byte} (h : s.readAhead opc = .ok ()) :
    s.fetchAddr 1 < Config.cap ∧ s.fetchAddr 2 < Config.cap ∧ s.fetchAddr 3 < Config.cap := by
  unfold State.readAhead at h
  by_cases h1 : s.fetchAddr 1 < Config.cap
  · by_cases h2 : s.fetchAddr 2 < Config.cap
    · by_cases h3 : s.fetchAddr 3 < Config.cap
      · exact ⟨h1, h2, h3⟩
      · simp [fetch_ok _ h1, fetch_ok _ h2, fetch_error _ (Nat.not_lt.1 h3)] at h
    · simp [fetch_ok _ h1, fetch_error _ (Nat.not_lt.1 h2)] at h
  · simp [fetch_error _ (Nat.not_lt.1 h1)] at h

/-- Bytes from `k` on, one byte and the rest. -/
theorem bytesFrom_ok {s : State} {k : Nat} (n : Nat) (h : s.fetchAddr k < Config.cap) :
    s.bytesFrom k (n + 1) = s.mem.read (s.fetchAddr k) :: s.bytesFrom (k + 1) n := by
  simp [State.bytesFrom, getByte_ok h]

theorem bytesFrom_error {s : State} {k : Nat} (n : Nat) (h : Config.cap ≤ s.fetchAddr k) :
    s.bytesFrom k n = [] := by
  cases n with
  | zero => rfl
  | succ n => simp [State.bytesFrom, getByte_error h]

/-- A row the lookup answers (R88). -/
theorem lookup_some {p : Params} {opc : Byte} {d : Desc} (h : p.lookup opc = some d) :
    d ∈ p.table ∧ d.byte = opc ∧ d.keptBy p.byteRows = true := by
  have h2 := List.find?_some h
  simp only [Bool.and_eq_true, beq_iff_eq] at h2
  exact ⟨List.mem_of_find?_eq_some h, h2⟩

/-! ### Execution -/

/-- Every instruction's meaning answers a next state: a Move of the right slots, or the halt transition (R143). -/
theorem exec_next (i : Instr) (s : State) :
    (∃ op1 op2, exec i s = .next (s.move i.opcode i.size op1 op2)) ∨ (i = .hlt ∧ exec i s = .next (s.halt 1)) := by
  cases i <;> first | exact .inr ⟨rfl, rfl⟩ | exact .inl ⟨_, _, rfl⟩

/-! ### The step -/

/-- What a step can do: stay in a terminal state, run an instruction, run another row of the table, abort in decoding, or
refuse a row without a decoder path. -/
theorem step_cases (s : State) :
    (s.run ≠ .running ∧ step s = .next s) ∨
    (s.run = .running ∧
      ((∃ i, s.fetchInstr = .instr i ∧ step s = exec i s) ∨
       (∃ opc d, s.fetchInstr = .row opc d ∧ step s = .next (s.runRow opc d)) ∨
       (∃ e, s.fetchInstr = .abort e ∧ step s = .next (s.raise e)) ∨
       (∃ r, s.fetchInstr = .refuse r ∧ step s = .refused r))) := by
  unfold step
  cases hr : s.run with
  | halted => exact .inl ⟨by simp, rfl⟩
  | aborted e => exact .inl ⟨by simp, rfl⟩
  | running =>
    refine .inr ⟨rfl, ?_⟩
    cases hf : s.fetchInstr with
    | instr i => exact .inl ⟨i, rfl, rfl⟩
    | row opc d => exact .inr (.inl ⟨opc, d, rfl, rfl⟩)
    | abort e => exact .inr (.inr (.inl ⟨e, rfl, rfl⟩))
    | refuse r => exact .inr (.inr (.inr ⟨r, rfl, rfl⟩))

end Sys2Proof.Machine
end

