-- ==== Sys2Proof/Laws/Exec.lean ====
section
/-! SUPPORT. Numeric values of byte views and words, the frames of the basic updates, the bounds of effective addresses,
and the operand slots of each instruction, so that no later proof unfolds the twenty-nine meanings again. -/

namespace Sys2Proof.Machine

/-! ### Numeric values -/

theorem be16_toNat (a b : Byte) : (be16 a b).toNat = 256 * a.toNat + b.toNat := by
  have h : (be16 a b).toNat = a.toNat <<< 8 ||| b.toNat := BitVec.toNat_append a b
  rw [h, Nat.shiftLeft_eq, Nat.mul_comm, ← Nat.two_pow_add_eq_or_of_lt b.isLt a.toNat]

theorem le16_toNat (a b : Byte) : (le16 a b).toNat = a.toNat + 256 * b.toNat := by
  have h := be16_toNat b a
  simp only [be16, le16] at *
  omega

theorem hi_toNat (v : Word) : (hi v).toNat = v.toNat / 256 := by
  have h := be16_toNat (hi v) (lo v)
  rw [be16_hi_lo] at h
  have := (lo v).isLt
  omega

theorem lo_toNat (v : Word) : (lo v).toNat = v.toNat % 256 := by
  have h := be16_toNat (hi v) (lo v)
  rw [be16_hi_lo] at h
  have := (lo v).isLt
  omega

theorem zext16_toNat (b : Byte) : (zext16 b).toNat = b.toNat := by
  have := b.isLt
  simp [zext16]
  omega

/-! ### Frames of the basic updates -/

theorem loadsGpr_writeReg (s : State) (r : GReg) (v : Word) (n : Nat) :
    LoadsGpr s ((s.writeReg (.gen r) v).advance n) r v n where
  value := by simp
  gpr q h := by simpa using Gprs.read_write_other _ _ h
  seg := by simp
  flags := by simp
  memory := by simp
  run := by simp
  params := by simp
  ip := by simp [State.codeOffset, State.nextIp]

theorem loadsSeg_writeReg (s : State) (r : SReg) (v : Word) (n : Nat) :
    LoadsSeg s ((s.writeReg (.seg r) v).advance n) r v n where
  value := by simp
  seg q h := by simpa using Segs.read_write_other _ _ h
  gpr := by simp
  flags := by simp
  memory := by simp
  run := by simp
  params := by simp
  ip := by simp [State.codeOffset, State.nextIp]

theorem storesWord_setWord (s : State) (a : Nat) (v : Word) (n : Nat) :
    StoresWord s (State.advance { s with mem := (s.mem.write a (hi v)).write (a + 1) (lo v) } n) a v n where
  high := by simp [hi_toNat]
  low := by simp [lo_toNat]
  memory b h1 h2 := by simp [h1, h2]
  gpr _ := rfl
  seg _ := rfl
  flags := rfl
  run := rfl
  params := rfl
  ip := rfl

theorem abortsUnchanged_raise (s : State) (e : AbortError) : AbortsUnchanged s (s.raise e) e :=
  ⟨rfl, fun _ => rfl, fun _ => rfl, rfl, rfl, fun _ => rfl, rfl⟩

/-! ### Effective addresses -/

theorem eaBase_le (s : State) (b : EaBase) : s.eaBase b ≤ 0x1FFFE := by
  have h1 := s.gpr.bx.isLt
  have h2 := s.gpr.si.isLt
  have h3 := s.gpr.bp.isLt
  have h4 := s.gpr.di.isLt
  cases b <;> simp only [State.eaBase] <;> omega

theorem wrapEa_le (s : State) (n : Nat) : s.wrapEa n ≤ n := by
  unfold State.wrapEa
  split
  · exact Nat.mod_le _ _
  · exact Nat.le_refl _

/-- A ModRM side is a general register or memory. -/
theorem resolve_cases (s : State) (rm : RmOp) :
    (∃ r, rm = .reg r ∧ s.resolve rm = .reg (.gen r)) ∨ (∃ a, s.resolve rm = .mem a) := by
  cases rm <;> first | exact .inl ⟨_, rfl, rfl⟩ | exact .inr ⟨_, rfl⟩

/-- Under the default `P_EA_SEG` a memory operand of a ModRM side is at most 0x2FFFD (R110, R111). -/
theorem resolve_le {s : State} (h : s.params.eaSeg = .unsegmented) (rm : RmOp) (a : Nat) (ha : s.resolve rm = .mem a) :
    a ≤ 0x2FFFD := by
  cases rm <;> simp only [State.resolve, State.eaLinear, h, Operand.mem.injEq, reduceCtorEq] at ha
  · rename_i x
    have := x.isLt
    omega
  · rename_i b
    have := eaBase_le s b
    have := wrapEa_le s (s.eaBase b)
    omega
  · rename_i b d
    have := eaBase_le s b
    have := wrapEa_le s (s.eaBase b + d.toNat)
    have := d.isLt
    omega
  · rename_i b d
    have := eaBase_le s b
    have := wrapEa_le s (s.eaBase b + d.toNat)
    have := d.isLt
    omega

theorem operandAddress_eq_some {o : Operand} {a : Nat} (h : operandAddress o = some a) : o = .mem a := by
  cases o <;> simp_all [operandAddress]

/-! ### The slots of each instruction -/

/-- Destination and source of a Move instruction (R14); HLT has none. -/
def moveSlots (i : Instr) (s : State) : Option (Operand × Operand) :=
  match i with
  | .movbRegRm reg rm => some (.reg (.gen reg), s.resolve rm)
  | .movRegRm reg rm => some (.reg (.gen reg), s.resolve rm)
  | .movbRmReg rm reg => some (s.resolve rm, .reg (.gen reg))
  | .movRmReg rm reg => some (s.resolve rm, .reg (.gen reg))
  | .movGprSeg _ r => some (.reg (.gen r.paired), .reg (.seg r))
  | .movSegGpr _ r => some (.reg (.seg r), .reg (.gen r.paired))
  | .movbAxMem addr => some (.reg (.gen .ax), .mem (s.eaLinear addr.toNat))
  | .movAxMem addr => some (.reg (.gen .ax), .mem (s.eaLinear addr.toNat))
  | .movbMemAx addr => some (.mem (s.eaLinear addr.toNat), .reg (.gen .ax))
  | .movMemAx addr => some (.mem (s.eaLinear addr.toNat), .reg (.gen .ax))
  | .movbAxImm8 imm => some (.reg (.gen .ax), .imm (zext16 imm))
  | .movbCxImm8 imm => some (.reg (.gen .cx), .imm (zext16 imm))
  | .movbDxImm8 imm => some (.reg (.gen .dx), .imm (zext16 imm))
  | .movbBxImm8 imm => some (.reg (.gen .bx), .imm (zext16 imm))
  | .movbSpImm8 imm => some (.reg (.gen .sp), .imm (zext16 imm))
  | .movbBpImm8 imm => some (.reg (.gen .bp), .imm (zext16 imm))
  | .movbSiImm8 imm => some (.reg (.gen .si), .imm (zext16 imm))
  | .movbDiImm8 imm => some (.reg (.gen .di), .imm (zext16 imm))
  | .movAxImm16 imm => some (.reg (.gen .ax), .imm imm)
  | .movCxImm16 imm => some (.reg (.gen .cx), .imm imm)
  | .movDxImm16 imm => some (.reg (.gen .dx), .imm imm)
  | .movBxImm16 imm => some (.reg (.gen .bx), .imm imm)
  | .movSpImm16 imm => some (.reg (.gen .sp), .imm imm)
  | .movBpImm16 imm => some (.reg (.gen .bp), .imm imm)
  | .movSiImm16 imm => some (.reg (.gen .si), .imm imm)
  | .movDiImm16 imm => some (.reg (.gen .di), .imm imm)
  | .movbRmImm8 rm imm => some (s.resolve rm, .imm (zext16 imm))
  | .movRmImm16 rm imm => some (s.resolve rm, .imm imm)
  | .hlt => none

/-- `exec` is the halt transition for HLT and otherwise the Move of the instruction's slots (R143). -/
theorem exec_eq (i : Instr) (s : State) :
    (i = .hlt ∧ exec i s = .next (s.halt 1)) ∨
    (∃ dst src, moveSlots i s = some (dst, src) ∧ exec i s = .next (s.move i.opcode i.size (some dst) (some src))) := by
  cases i <;> first | exact .inl ⟨rfl, rfl⟩ | exact .inr ⟨_, _, rfl, rfl⟩

/-- Move accepts the slots of every instruction (R171). -/
theorem movePair_moveSlots {i : Instr} {s : State} {dst src : Operand} (h : moveSlots i s = some (dst, src)) :
    movePair (some dst) (some src) = some (dst, src) := by
  cases i <;> cases h <;> first
    | rfl
    | (rename_i rm _; cases rm <;> rfl)

/-- The load address is the source's address. -/
theorem loadAddr_moveSlots {i : Instr} {s : State} {dst src : Operand} (h : moveSlots i s = some (dst, src)) :
    loadAddr i s = operandAddress src := by
  cases i <;> cases h <;> rfl

/-- The store is to the destination's address, of a source that reads without memory. -/
theorem storeOf_moveSlots {i : Instr} {s : State} {dst src : Operand} (h : moveSlots i s = some (dst, src)) :
    (∀ a, dst = .mem a → ∃ v, s.readOperand src = .ok v ∧ storeOf i s = some (a, v)) ∧
    ((∀ a, dst ≠ .mem a) → storeOf i s = none) := by
  cases i <;> cases h <;> simp [storeOf, State.readOperand, operandAddress, Gprs.read] <;>
    (rename_i rm _; cases rm <;> simp [State.resolve])

/-- A segment register is a destination of 0x8E alone (R177). -/
theorem seg_destination {i : Instr} {s : State} {r : SReg} {src : Operand}
    (h : moveSlots i s = some (.reg (.seg r), src)) : ∃ ign, i = .movSegGpr ign r := by
  cases i <;> simp only [moveSlots, Option.some.injEq, Prod.mk.injEq, reduceCtorEq, Operand.reg.injEq, RegRef.seg.injEq,
    false_and] at h <;> first
    | exact ⟨_, by rw [h.1]⟩
    | (obtain ⟨h, -⟩ := h; rename_i rm _; cases rm <;> simp [State.resolve] at h)

/-- A segment register is a source of 0x8C alone (R176). -/
theorem seg_source {i : Instr} {s : State} {r : SReg} {dst : Operand}
    (h : moveSlots i s = some (dst, .reg (.seg r))) : ∃ ign, i = .movGprSeg ign r := by
  cases i <;> simp only [moveSlots, Option.some.injEq, Prod.mk.injEq, reduceCtorEq, Operand.reg.injEq, RegRef.seg.injEq,
    and_false] at h <;> first
    | exact ⟨_, by rw [h.2]⟩
    | (obtain ⟨-, h⟩ := h; rename_i rm; cases rm <;> simp [State.resolve] at h)

/-- What writing an operand changes: registers of the operand's file, or memory, and nothing else. -/
theorem writeOperand_fields (s : State) (dst : Operand) (v : Word) :
    (∃ r, dst = .reg r ∧ s.writeOperand dst v = (s.writeReg r v, none)) ∨
    (∃ a m o, dst = .mem a ∧ s.writeOperand dst v = ({ s with mem := m }, o)) ∨
    (∃ w, dst = .imm w ∧ s.writeOperand dst v = (s, none)) := by
  cases dst with
  | reg r => exact .inl ⟨r, rfl, rfl⟩
  | imm w => exact .inr (.inr ⟨w, rfl, rfl⟩)
  | mem a =>
    obtain ⟨m, h⟩ := setWord_fields s v a
    exact .inr (.inl ⟨a, m, (s.setWord v a).2, rfl, by rw [← h]; rfl⟩)

end Sys2Proof.Machine
end

