-- ==== Sys2Proof/Laws/Fetch.lean ====
section
/-! SUPPORT. What fetching and the table-driven decoder can do: the bytes the decoder sees, the ModRM side read both ways,
and the code position every decoding error records (R225). -/

namespace Sys2Proof.Machine

/-! ### The window of bytes -/

/-- The window starts with the bytes in range at the fetch addresses. -/
theorem bytesFrom_prefix (s : State) (l : List Byte) (k n : Nat) (hn : l.length ≤ n)
    (h : ∀ (j : Nat) (hj : j < l.length), s.getByte (s.fetchAddr (k + j)) = .ok l[j]) :
    s.bytesFrom k n = l ++ s.bytesFrom (k + l.length) (n - l.length) := by
  induction l generalizing k n with
  | nil => simp
  | cons b l ih =>
    cases n with
    | zero => simp at hn
    | succ n =>
      have h0 := h 0 (by simp)
      simp only [Nat.add_zero, List.getElem_cons_zero] at h0
      simp only [State.bytesFrom, h0]
      rw [ih (k + 1) n (by simpa using hn) fun j hj => by
        have := h (j + 1) (by simpa using hj)
        simpa [Nat.add_assoc, Nat.add_comm 1] using this]
      simp [Nat.add_assoc, Nat.add_comm 1]

/-- With the opcode byte and the read-ahead bytes in range, the window is those four and at most two more (R101). -/
theorem window_ok (s : State) (h : ∀ k, k ≤ 3 → s.fetchAddr k < Config.cap) :
    ∃ b0 b1 b2 b3, s.window = b0 :: b1 :: b2 :: b3 :: s.bytesFrom 4 2 ∧
      ∀ o, s.fetch o 0 = .ok b0 ∧ s.fetch o 1 = .ok b1 ∧ s.fetch o 2 = .ok b2 ∧ s.fetch o 3 = .ok b3 := by
  have h0 := h 0 (by omega)
  have h1 := h 1 (by omega)
  have h2 := h 2 (by omega)
  have h3 := h 3 (by omega)
  refine ⟨_, _, _, _, ?_, fun o => ⟨fetch_ok o h0, fetch_ok o h1, fetch_ok o h2, fetch_ok o h3⟩⟩
  unfold State.window
  rw [bytesFrom_ok _ h0, bytesFrom_ok _ h1, bytesFrom_ok _ h2, bytesFrom_ok _ h3]

/-- The two bytes after the read-ahead bytes: none, one or both in range. -/
theorem bytesFrom_four (s : State) (o : Option Byte) :
    (Config.cap ≤ s.fetchAddr 4 ∧ s.bytesFrom 4 2 = []) ∨
    (∃ b4, s.fetch o 4 = .ok b4 ∧ Config.cap ≤ s.fetchAddr 5 ∧ s.bytesFrom 4 2 = [b4]) ∨
    (∃ b4 b5, s.fetch o 4 = .ok b4 ∧ s.fetch o 5 = .ok b5 ∧ s.bytesFrom 4 2 = [b4, b5]) := by
  by_cases h4 : s.fetchAddr 4 < Config.cap
  · by_cases h5 : s.fetchAddr 5 < Config.cap
    · exact .inr (.inr ⟨_, _, fetch_ok _ h4, fetch_ok _ h5, by rw [bytesFrom_ok _ h4, bytesFrom_ok _ h5]; rfl⟩)
    · exact .inr (.inl ⟨_, fetch_ok _ h4, Nat.not_lt.1 h5,
        by rw [bytesFrom_ok _ h4, bytesFrom_error _ (Nat.not_lt.1 h5)]⟩)
  · exact .inl ⟨Nat.not_lt.1 h4, bytesFrom_error _ (Nat.not_lt.1 h4)⟩

/-- The ModRM side read from a list of bytes and from the machine is the same, with the same number of bytes consumed. -/
theorem fetchSide_eq (s : State) (opc : Byte) (mod : BitVec 2) (rm : BitVec 3) (b2 b3 : Byte) (tail : List Byte)
    (h2 : s.fetch (some opc) 2 = .ok b2) (h3 : s.fetch (some opc) 3 = .ok b3) :
    ∃ r : RmOp, (∀ k, takeRm mod rm (b2 :: b3 :: tail) k = k r ((b2 :: b3 :: tail).drop r.dispLen)) ∧
      s.fetchSide opc mod rm 2 = .ok (s.resolve r, 2 + r.dispLen) := by
  have hm : mod = 0#2 ∨ mod = 1#2 ∨ mod = 2#2 ∨ mod = 3#2 := by revert mod; decide
  rcases hm with rfl | rfl | rfl | rfl
  · by_cases h : rm = 6#3
    · subst h
      exact ⟨.direct (le16 b2 b3), fun k => rfl,
        by simp [State.fetchSide, State.fetchField, h2, h3, State.resolve, RmOp.dispLen]⟩
    · exact ⟨.base (EaBase.ofIndex rm), fun k => by simp [takeRm, h, RmOp.dispLen],
        by simp [State.fetchSide, h, State.resolve, RmOp.dispLen]⟩
  · exact ⟨.disp8 (EaBase.ofIndex rm) b2, fun k => rfl,
      by simp [State.fetchSide, h2, State.resolve, RmOp.dispLen, zext16_toNat]⟩
  · exact ⟨.disp16 (EaBase.ofIndex rm) (le16 b2 b3), fun k => rfl,
      by simp [State.fetchSide, State.fetchField, h2, h3, State.resolve, RmOp.dispLen]⟩
  · exact ⟨.reg (GReg.ofIndex rm), fun k => rfl, by simp [State.fetchSide, State.resolve, RmOp.dispLen]⟩

/-! ### Every decoding error records the code position -/

theorem fetch_position {s : State} {o : Option Byte} {k : Nat} {e : AbortError} (h : s.fetch o k = .error e) :
    e.position = (s.seg.cs, s.ip) := by
  unfold State.fetch at h
  split at h <;> cases h
  rfl

theorem fetchField_position {s : State} {o : Byte} {k : Nat} {e : AbortError} (h : s.fetchField o k = .error e) :
    e.position = (s.seg.cs, s.ip) := by
  unfold State.fetchField at h
  split at h
  · cases h; exact fetch_position ‹_›
  · split at h <;> cases h
    exact fetch_position ‹_›

theorem fetchOpcode_position {s : State} {e : AbortError} (h : s.fetchOpcode = .error e) :
    e.position = (s.seg.cs, s.ip) := by
  unfold State.fetchOpcode at h
  split at h
  · cases h; exact fetch_position ‹_›
  · split at h <;> cases h
    rfl

theorem readAhead_position {s : State} {o : Byte} {e : AbortError} (h : s.readAhead o = .error e) :
    e.position = (s.seg.cs, s.ip) := by
  unfold State.readAhead at h
  split at h
  · cases h; exact fetch_position ‹_›
  · split at h
    · cases h; exact fetch_position ‹_›
    · split at h <;> cases h
      exact fetch_position ‹_›

theorem fetchSide_position {s : State} {o : Byte} {mod : BitVec 2} {rm : BitVec 3} {n : Nat} {e : AbortError}
    (h : s.fetchSide o mod rm n = .error e) : e.position = (s.seg.cs, s.ip) := by
  unfold State.fetchSide at h
  split at h
  · cases h
  split at h
  · split at h <;> cases h
    exact fetchField_position ‹_›
  split at h
  · split at h <;> cases h
    exact fetch_position ‹_›
  split at h
  · split at h <;> cases h
    exact fetchField_position ‹_›
  · cases h

theorem stepModRM_position {s : State} {d : Desc} {o : Byte} {x : Slots} {e : AbortError}
    (h : s.stepModRM d o x = .error e) : e.position = (s.seg.cs, s.ip) := by
  unfold State.stepModRM at h
  split at h
  · split at h
    · cases h; exact fetch_position ‹_›
    · split at h
      · split at h
        · cases h; rfl
        · split at h <;> cases h
          rfl
      · split at h
        · cases h; rfl
        · split at h <;> cases h
          exact fetchSide_position ‹_›
  · cases h

theorem stepImmediate_position {s : State} {d : Desc} {o : Byte} {x : Slots} {e : AbortError}
    (h : s.stepImmediate d o x = .error e) : e.position = (s.seg.cs, s.ip) := by
  unfold State.stepImmediate at h
  split at h
  · split at h
    · split at h <;> cases h
      exact fetchField_position ‹_›
    · split at h <;> cases h
      exact fetch_position ‹_›
  · cases h

theorem stepDirect_position {s : State} {d : Desc} {o : Byte} {x : Slots} {e : AbortError}
    (h : s.stepDirect d o x = .error e) : e.position = (s.seg.cs, s.ip) := by
  unfold State.stepDirect at h
  split at h
  · split at h <;> cases h
    exact fetchField_position ‹_›
  · cases h

theorem decodeRow_position {s : State} {d : Desc} {o : Byte} {e : AbortError} (h : s.decodeRow d o = .error e) :
    e.position = (s.seg.cs, s.ip) := by
  unfold State.decodeRow at h
  split at h
  · cases h; exact stepModRM_position ‹_›
  · split at h
    · cases h; exact stepImmediate_position ‹_›
    · split at h <;> cases h
      exact stepDirect_position ‹_›

theorem fetchInstr_position {s : State} {e : AbortError} (h : s.fetchInstr = .abort e) :
    e.position = (s.seg.cs, s.ip) := by
  unfold State.fetchInstr at h
  split at h
  · cases h; exact fetchOpcode_position ‹_›
  · split at h
    · split at h
      · cases h; exact readAhead_position ‹_›
      · split at h
        · split at h <;> cases h
          rename_i err _
          cases err <;> rfl
        · cases h
    · cases h

end Sys2Proof.Machine
end

