-- ==== Sys2Proof/Laws/PerInstr.lean ====
section
/-! SUPPORT. Per-instruction families: one lemma per constructor. `EncodedSize`: an instruction's encoding has the length
R120 gives, between 1 and 6 bytes (R11). -/

namespace Sys2Proof.Laws.EncodedSize

/-- The encoding has the instruction's size, at least 1 and at most 6 bytes. -/
def Statement (i : Instr) : Prop := (encode i).length = i.size ∧ 1 ≤ i.size ∧ i.size ≤ 6

/-- An opcode byte and `n` more bytes. -/
theorem of_operandBytes {i : Instr} {n : Nat} (h : i.operandBytes.length = n) (e : i.size = 1 + n) (le : n ≤ 5) :
    Statement i := by
  have l : (encode i).length = i.operandBytes.length + 1 := rfl
  exact ⟨by omega, by omega, by omega⟩

theorem movbRegRm (reg : GReg) (rm : RmOp) : Statement (.movbRegRm reg rm) :=
  of_operandBytes (n := 1 + rm.dispLen) (rm.length_encode _) (by simp only [Instr.size]; omega)
    (by have := rm.dispLen_le; omega)

theorem movRegRm (reg : GReg) (rm : RmOp) : Statement (.movRegRm reg rm) :=
  of_operandBytes (n := 1 + rm.dispLen) (rm.length_encode _) (by simp only [Instr.size]; omega)
    (by have := rm.dispLen_le; omega)

theorem movbRmReg (rm : RmOp) (reg : GReg) : Statement (.movbRmReg rm reg) :=
  of_operandBytes (n := 1 + rm.dispLen) (rm.length_encode _) (by simp only [Instr.size]; omega)
    (by have := rm.dispLen_le; omega)

theorem movRmReg (rm : RmOp) (reg : GReg) : Statement (.movRmReg rm reg) :=
  of_operandBytes (n := 1 + rm.dispLen) (rm.length_encode _) (by simp only [Instr.size]; omega)
    (by have := rm.dispLen_le; omega)

theorem movGprSeg (ign : BitVec 3) (rm : SReg) : Statement (.movGprSeg ign rm) := of_operandBytes (n := 1) rfl rfl (by decide)

theorem movSegGpr (ign : BitVec 3) (rm : SReg) : Statement (.movSegGpr ign rm) := of_operandBytes (n := 1) rfl rfl (by decide)

theorem movbAxMem (addr : Word) : Statement (.movbAxMem addr) := of_operandBytes (n := 2) rfl rfl (by decide)

theorem movAxMem (addr : Word) : Statement (.movAxMem addr) := of_operandBytes (n := 2) rfl rfl (by decide)

theorem movbMemAx (addr : Word) : Statement (.movbMemAx addr) := of_operandBytes (n := 2) rfl rfl (by decide)

theorem movMemAx (addr : Word) : Statement (.movMemAx addr) := of_operandBytes (n := 2) rfl rfl (by decide)

theorem movbAxImm8 (imm : Byte) : Statement (.movbAxImm8 imm) := of_operandBytes (n := 1) rfl rfl (by decide)

theorem movbCxImm8 (imm : Byte) : Statement (.movbCxImm8 imm) := of_operandBytes (n := 1) rfl rfl (by decide)

theorem movbDxImm8 (imm : Byte) : Statement (.movbDxImm8 imm) := of_operandBytes (n := 1) rfl rfl (by decide)

theorem movbBxImm8 (imm : Byte) : Statement (.movbBxImm8 imm) := of_operandBytes (n := 1) rfl rfl (by decide)

theorem movbSpImm8 (imm : Byte) : Statement (.movbSpImm8 imm) := of_operandBytes (n := 1) rfl rfl (by decide)

theorem movbBpImm8 (imm : Byte) : Statement (.movbBpImm8 imm) := of_operandBytes (n := 1) rfl rfl (by decide)

theorem movbSiImm8 (imm : Byte) : Statement (.movbSiImm8 imm) := of_operandBytes (n := 1) rfl rfl (by decide)

theorem movbDiImm8 (imm : Byte) : Statement (.movbDiImm8 imm) := of_operandBytes (n := 1) rfl rfl (by decide)

theorem movAxImm16 (imm : Word) : Statement (.movAxImm16 imm) := of_operandBytes (n := 2) rfl rfl (by decide)

theorem movCxImm16 (imm : Word) : Statement (.movCxImm16 imm) := of_operandBytes (n := 2) rfl rfl (by decide)

theorem movDxImm16 (imm : Word) : Statement (.movDxImm16 imm) := of_operandBytes (n := 2) rfl rfl (by decide)

theorem movBxImm16 (imm : Word) : Statement (.movBxImm16 imm) := of_operandBytes (n := 2) rfl rfl (by decide)

theorem movSpImm16 (imm : Word) : Statement (.movSpImm16 imm) := of_operandBytes (n := 2) rfl rfl (by decide)

theorem movBpImm16 (imm : Word) : Statement (.movBpImm16 imm) := of_operandBytes (n := 2) rfl rfl (by decide)

theorem movSiImm16 (imm : Word) : Statement (.movSiImm16 imm) := of_operandBytes (n := 2) rfl rfl (by decide)

theorem movDiImm16 (imm : Word) : Statement (.movDiImm16 imm) := of_operandBytes (n := 2) rfl rfl (by decide)

theorem movbRmImm8 (rm : RmOp) (imm : Byte) : Statement (.movbRmImm8 rm imm) :=
  of_operandBytes (n := 2 + rm.dispLen)
    (show (rm.encode 0 ++ [imm]).length = _ by simp; omega) (by simp only [Instr.size]; omega)
    (by have := rm.dispLen_le; omega)

theorem movRmImm16 (rm : RmOp) (imm : Word) : Statement (.movRmImm16 rm imm) :=
  of_operandBytes (n := 3 + rm.dispLen)
    (show (rm.encode 0 ++ encodeWord imm).length = _ by simp; omega) (by simp only [Instr.size]; omega)
    (by have := rm.dispLen_le; omega)

theorem hlt : Statement (.hlt) := of_operandBytes (n := 0) rfl rfl (by decide)

end Sys2Proof.Laws.EncodedSize
end

