-- ==== Sys2Proof/Machine/Listing.lean ====
section
/-! DEFINITION. The assembler syntax the spec writes its own listings in (R127): `MNEMONIC dst, src`, with `MOV.B` for a row
whose width bit is clear. No behaviour depends on it (D20). -/

namespace Sys2Proof.Machine

/-- A hex digit. -/
def hexDigit (n : BitVec 4) : String :=
  if n.toNat < 10 then String.singleton (Char.ofNat (48 + n.toNat)) else String.singleton (Char.ofNat (55 + n.toNat))

/-- A byte as two hex digits. -/
def hexByte (b : Byte) : String := hexDigit (b.extractLsb' 4 4) ++ hexDigit (b.extractLsb' 0 4)

/-- A word as four hex digits. -/
def hexWord (w : Word) : String := hexByte (fieldHi w) ++ hexByte (fieldLo w)

/-- Names of the general registers (R20). -/
def GReg.name : GReg → String
  | .ax => "AX"
  | .cx => "CX"
  | .dx => "DX"
  | .bx => "BX"
  | .sp => "SP"
  | .bp => "BP"
  | .si => "SI"
  | .di => "DI"

/-- Names of the segment registers (R26). -/
def SReg.name : SReg → String
  | .es => "ES"
  | .cs => "CS"
  | .ss => "SS"
  | .ds => "DS"

/-- Names of the bases (R105). -/
def EaBase.name : EaBase → String
  | .bxSi => "BX+SI"
  | .bxDi => "BX+DI"
  | .bpSi => "BP+SI"
  | .bpDi => "BP+DI"
  | .si => "SI"
  | .di => "DI"
  | .bp => "BP"
  | .bx => "BX"

/-- A register, `[addr]`, `[base]` or `[base+disp]` (R127). -/
def RmOp.name : RmOp → String
  | .reg r => GReg.name r
  | .direct a => "[" ++ hexWord a ++ "]"
  | .base b => "[" ++ EaBase.name b ++ "]"
  | .disp8 b d => "[" ++ EaBase.name b ++ "+" ++ hexByte d ++ "]"
  | .disp16 b d => "[" ++ EaBase.name b ++ "+" ++ hexWord d ++ "]"

/-- A Move of a row whose width bit is set, or that has none. -/
def mov (dst src : String) : String := "MOV " ++ dst ++ ", " ++ src

/-- A Move of a row whose width bit is clear. -/
def movB (dst src : String) : String := "MOV.B " ++ dst ++ ", " ++ src

/-- The listing line of an instruction (R127). -/
def listing : Instr → String
  | .movbRegRm reg rm => movB (GReg.name reg) (RmOp.name rm)
  | .movRegRm reg rm => mov (GReg.name reg) (RmOp.name rm)
  | .movbRmReg rm reg => movB (RmOp.name rm) (GReg.name reg)
  | .movRmReg rm reg => mov (RmOp.name rm) (GReg.name reg)
  | .movGprSeg _ rm => mov (GReg.name rm.paired) (SReg.name rm)
  | .movSegGpr _ rm => mov (SReg.name rm) (GReg.name rm.paired)
  | .movbAxMem addr => movB "AX" (RmOp.name (.direct addr))
  | .movAxMem addr => mov "AX" (RmOp.name (.direct addr))
  | .movbMemAx addr => movB (RmOp.name (.direct addr)) "AX"
  | .movMemAx addr => mov (RmOp.name (.direct addr)) "AX"
  | .movbAxImm8 imm => movB "AX" (hexByte imm)
  | .movbCxImm8 imm => movB "CX" (hexByte imm)
  | .movbDxImm8 imm => movB "DX" (hexByte imm)
  | .movbBxImm8 imm => movB "BX" (hexByte imm)
  | .movbSpImm8 imm => movB "SP" (hexByte imm)
  | .movbBpImm8 imm => movB "BP" (hexByte imm)
  | .movbSiImm8 imm => movB "SI" (hexByte imm)
  | .movbDiImm8 imm => movB "DI" (hexByte imm)
  | .movAxImm16 imm => mov "AX" (hexWord imm)
  | .movCxImm16 imm => mov "CX" (hexWord imm)
  | .movDxImm16 imm => mov "DX" (hexWord imm)
  | .movBxImm16 imm => mov "BX" (hexWord imm)
  | .movSpImm16 imm => mov "SP" (hexWord imm)
  | .movBpImm16 imm => mov "BP" (hexWord imm)
  | .movSiImm16 imm => mov "SI" (hexWord imm)
  | .movDiImm16 imm => mov "DI" (hexWord imm)
  | .movbRmImm8 rm imm => movB (RmOp.name rm) (hexByte imm)
  | .movRmImm16 rm imm => mov (RmOp.name rm) (hexWord imm)
  | .hlt => "HLT"

/-- The segment rows as an assembler emits them: reg = rm, so that the ignored field has a definite value (R127). -/
def asmGprSeg (rm : SReg) : Instr := .movGprSeg rm.index rm

/-- The same for 0x8E (R127). -/
def asmSegGpr (rm : SReg) : Instr := .movSegGpr rm.index rm

end Sys2Proof.Machine
end

