-- ==== Sys2Proof/Tests/Slice0.lean ====
section
/-! SUPPORT. The model's own tests. Every expected result is a vector of 95_test_vectors.md, named in the test, or a hand
calculation from the rule named. Then one witness per obligation that has hypotheses. -/

namespace Sys2Proof.Machine

/-- A state with bytes at an address. -/
def State.put (s : State) (a : Nat) (bs : List Byte) : State := { s with mem := Memory.copy s.mem a bs }

/-- A general register written. -/
def State.withReg (s : State) (r : GReg) (v : Word) : State := { s with gpr := s.gpr.write r v }

/-- A segment register written. -/
def State.withSeg (s : State) (r : SReg) (v : Word) : State := { s with seg := s.seg.write r v }

/-- Other parameters. -/
def State.withParams (s : State) (p : Params) : State := { s with params := p }

/-- The code position moved to CS:IP. -/
def State.atPos (s : State) (cs : Word) (ip : Nat) : State := { s with seg := s.seg.write .cs cs, ip := ip }

end Sys2Proof.Machine

namespace Sys2Proof.Slice0

set_option Elab.async false

open Sys2Proof.Machine

/-! ### Helpers -/

/-- The next state of a step, if it is one. -/
def after (s : State) : Option State :=
  match step s with
  | .next t => some t
  | .fault _ => none
  | .refused _ => none

/-- The reset state with instruction bytes at the first fetch address 0xF0100. -/
def code (bs : List Byte) : State := State.put State.reset 0xF0100 bs

/-- A general register after one step. -/
def regAfter (s : State) (r : GReg) : Option Word := (after s).map fun t => t.gpr.read r

/-- Two bytes of memory and IP after one step. -/
def wordAfter (s : State) (a : Nat) : Option (Byte × Byte × Nat) :=
  (after s).map fun t => (t.mem.read a, t.mem.read (a + 1), t.ip)

/-- RUN and IP after one step. -/
def runAfter (s : State) : Option (RunState × Nat) := (after s).map fun t => (t.run, t.ip)

/-! ### WellFormed and table checks: ill-formed terms are refused -/

theorem test_wf_refuses_bp_without_displacement : (Instr.movRegRm .ax (.base .bp)).wf = false := by decide
theorem test_wf_refuses_bp_in_every_modrm_row :
    (Instr.movbRegRm .ax (.base .bp)).wf = false ∧ (Instr.movbRmReg (.base .bp) .ax).wf = false ∧
    (Instr.movRmReg (.base .bp) .ax).wf = false ∧ (Instr.movbRmImm8 (.base .bp) 1).wf = false ∧
    (Instr.movRmImm16 (.base .bp) 1).wf = false := by decide
theorem test_wf_takes_bp_with_displacement : (Instr.movRegRm .ax (.disp8 .bp 0)).wf = true := by decide
theorem test_table_refuses_duplicate_byte : tableOk [rowNone 0xF4, rowNone 0xF4] = false := by decide
theorem test_table_refuses_unknown_shape :
    tableOk [⟨0x90, .halt, 1, false, false, false, true, false, false, false⟩] = false := by decide
theorem test_table_refuses_wrong_base_size : tableOk [rowRegImm 0xB8 2] = false := by decide
theorem test_table_takes_an_added_row : tableOk [rowRegImm 0x40 2, rowNone 0x90] = true := by decide

/-! ### Decoding: DEC1 to DEC29 of section 2.3 -/

theorem test_decode_modrm_rows :
    decode [0x88, 0xC8] = .ok (.movbRegRm .cx (.reg .ax), []) ∧ decode [0x89, 0xC8] = .ok (.movRegRm .cx (.reg .ax), []) ∧
    decode [0x8A, 0xC8] = .ok (.movbRmReg (.reg .ax) .cx, []) ∧ decode [0x8B, 0xC8] = .ok (.movRmReg (.reg .ax) .cx, []) := by
  decide
theorem test_decode_segment_rows :
    decode [0x8C, 0xC0] = .ok (.movGprSeg 0 .es, []) ∧ decode [0x8E, 0xC0] = .ok (.movSegGpr 0 .es, []) := by decide
theorem test_decode_direct_rows :
    decode [0xA0, 0x00, 0x05] = .ok (.movbAxMem 0x0500, []) ∧ decode [0xA1, 0x00, 0x05] = .ok (.movAxMem 0x0500, []) ∧
    decode [0xA2, 0x00, 0x05] = .ok (.movbMemAx 0x0500, []) ∧ decode [0xA3, 0x00, 0x05] = .ok (.movMemAx 0x0500, []) := by
  decide
theorem test_decode_byte_immediate_rows :
    decode [0xB0, 0x7F] = .ok (.movbAxImm8 0x7F, []) ∧ decode [0xB1, 0x7F] = .ok (.movbCxImm8 0x7F, []) ∧
    decode [0xB2, 0x7F] = .ok (.movbDxImm8 0x7F, []) ∧ decode [0xB3, 0x7F] = .ok (.movbBxImm8 0x7F, []) ∧
    decode [0xB4, 0x7F] = .ok (.movbSpImm8 0x7F, []) ∧ decode [0xB5, 0x7F] = .ok (.movbBpImm8 0x7F, []) ∧
    decode [0xB6, 0x7F] = .ok (.movbSiImm8 0x7F, []) ∧ decode [0xB7, 0x7F] = .ok (.movbDiImm8 0x7F, []) := by decide
theorem test_decode_word_immediate_rows :
    decode [0xB8, 0x34, 0x12] = .ok (.movAxImm16 0x1234, []) ∧ decode [0xB9, 0x34, 0x12] = .ok (.movCxImm16 0x1234, []) ∧
    decode [0xBA, 0x34, 0x12] = .ok (.movDxImm16 0x1234, []) ∧ decode [0xBB, 0x34, 0x12] = .ok (.movBxImm16 0x1234, []) ∧
    decode [0xBC, 0x34, 0x12] = .ok (.movSpImm16 0x1234, []) ∧ decode [0xBD, 0x34, 0x12] = .ok (.movBpImm16 0x1234, []) ∧
    decode [0xBE, 0x34, 0x12] = .ok (.movSiImm16 0x1234, []) ∧ decode [0xBF, 0x34, 0x12] = .ok (.movDiImm16 0x1234, []) := by
  decide
theorem test_decode_modrm_immediate_rows_and_halt :
    decode [0xC6, 0xC0, 0x7F] = .ok (.movbRmImm8 (.reg .ax) 0x7F, []) ∧
    decode [0xC7, 0xC0, 0x34, 0x12] = .ok (.movRmImm16 (.reg .ax) 0x1234, []) ∧ decode [0xF4] = .ok (.hlt, []) := by decide

/-- LEN6 to LEN8: the longest forms. -/
theorem test_decode_longest_forms :
    decode [0x89, 0x98, 0x02, 0x01] = .ok (.movRegRm .bx (.disp16 .bxSi 0x0102), []) ∧
    decode [0xC6, 0x06, 0x02, 0x01, 0x7F] = .ok (.movbRmImm8 (.direct 0x0102) 0x7F, []) ∧
    decode [0xC7, 0x80, 0x02, 0x01, 0x04, 0x03] = .ok (.movRmImm16 (.disp16 .bxSi 0x0102) 0x0304, []) := by decide

/-- ERR1, ERR4 to ERR8: what the decoder refuses. -/
theorem test_decode_refusals :
    decode [0xFF] = .error (.unrecognized 0xFF) ∧ decode [0x8D, 0x00] = .error (.unrecognized 0x8D) ∧
    decode [0x8C, 0x06, 0x00, 0x05] = .error (.unsupported 0x8C 0x06) ∧
    decode [0x8E, 0x47, 0x10] = .error (.unsupported 0x8E 0x47) ∧ decode [0x8C, 0xDC] = .error (.unsupported 0x8C 0xDC) ∧
    decode [0xC7, 0xC8, 0x00, 0x00] = .error (.unsupported 0xC7 0xC8) ∧
    decode [0xC6, 0x0E] = .error (.unsupported 0xC6 0x0E) := by decide

/-- Numbering of the host's word form: byte 0 in bits 7:0, byte 1 in bits 15:8. -/
theorem test_decodeTableWord : decodeTableWord 24 0x1234B8 = some (.movAxImm16 0x1234) ∧
    decodeTableWord 8 0xB8 = some (.movAxImm16 0) ∧ decodeTableWord 8 0xF4 = some .hlt := by decide
theorem test_withFetchWord_is_fetched_at_reset :
    (State.reset.withFetchWord 24 0x1234B8).fetchInstr = .instr (.movAxImm16 0x1234) := by decide +kernel

/-- The listings of programs P1, P2, P3 and P7, and the bytes an assembler emits for the segment rows. -/
theorem test_listing :
    listing (.movAxImm16 0x1234) = "MOV AX, 1234" ∧ listing (.movMemAx 0x0500) = "MOV [0500], AX" ∧
    listing (.movRmReg (.base .bxSi) .cx) = "MOV [BX+SI], CX" ∧
    listing (.movRegRm .dx (.disp8 .bx 0x10)) = "MOV DX, [BX+10]" ∧ listing (.movbSpImm8 0x12) = "MOV.B SP, 12" ∧
    encode (asmSegGpr .ds) = [0x8E, 0xDB] ∧ encode (asmGprSeg .ds) = [0x8C, 0xDB] := by decide +kernel

/-! ### Effective addresses: section 2.4 -/

/-- The registers of section 2.4. -/
def eaState : State :=
  (((State.withReg State.reset .bx 0x1000).withReg .si 0x0020).withReg .di 0x0030).withReg .bp 0x2000

/-- The operand of the ModRM side of `8B modrm ...` (op1 of section 2.4). -/
def sideOf (s : State) (bs : List Byte) : Option Operand :=
  match decode (0x8B :: bs) with
  | .ok (.movRmReg rm _, _) => some (s.resolve rm)
  | _ => none

theorem test_ea1_to_ea8 :
    [[0x00], [0x01], [0x02], [0x03], [0x04], [0x05], [0x06, 0x34, 0x12], [0x07]].map (sideOf eaState) =
    [0x1020, 0x1030, 0x2020, 0x2030, 0x0020, 0x0030, 0x1234, 0x1000].map fun a => some (.mem a) := by decide +kernel
theorem test_ea9_to_ea16 :
    [0x40, 0x41, 0x42, 0x43, 0x44, 0x45, 0x46, 0x47].map (fun m => sideOf eaState [m, 0x80]) =
    [0x10A0, 0x10B0, 0x20A0, 0x20B0, 0x00A0, 0x00B0, 0x2080, 0x1080].map fun a => some (.mem a) := by decide +kernel
theorem test_ea17_to_ea24 :
    [0x80, 0x81, 0x82, 0x83, 0x84, 0x85, 0x86, 0x87].map (fun m => sideOf eaState [m, 0x34, 0x12]) =
    [0x2254, 0x2264, 0x3254, 0x3264, 0x1254, 0x1264, 0x3234, 0x2234].map fun a => some (.mem a) := by decide +kernel
theorem test_ea25_wrap :
    (let s := (State.withReg State.reset .bx 0xFFFF).withReg .si 0x0002
     (sideOf s [0x00], sideOf (s.withParams { defaultParams with eaWrap16 := true }) [0x00])) =
    (some (.mem 0x10001), some (.mem 0x0001)) := by decide +kernel
theorem test_ea26_largest :
    sideOf ((State.withReg State.reset .bx 0xFFFF).withReg .si 0xFFFF) [0x80, 0xFF, 0xFF] = some (.mem 0x2FFFD) := by
  decide +kernel
theorem test_ea29_segment :
    (let s := (State.withReg State.reset .bx 0x1000).withSeg .ds 0x0100
     (sideOf s [0x07], sideOf (s.withParams { defaultParams with eaSeg := .ds }) [0x07])) =
    (some (.mem 0x1000), some (.mem 0x2000)) := by decide +kernel

/-! ### Registers and memory: sections 2.1 and 2.2 -/

theorem test_reg1_reg2 : setLo 0x1234 0xFF = 0x12FF ∧ setHi 0x1234 0xAB = 0xAB34 := by decide
theorem test_reg5_designated :
    (loaderInit { LaunchArgs.zeros .dx with gpr := ⟨0, 0, 0xABCD, 0, 0, 0, 0, 0⟩ }).gpr.dx = 0xAB00 := by decide +kernel
theorem test_mem1_to_mem5 :
    lin 0xF000 0x0100 = 0xF0100 ∧ lin 0x1234 0x5678 = 0x179B8 ∧ lin 0xFFFF 0x10000 = Config.cap := by decide
theorem test_mem8_cut :
    ((State.reset.setWord 0xABCD 0x10FFEF).1.mem, (State.reset.setWord 0xABCD 0x10FFEF).2) =
    ([(0x10FFEF, 0xAB)], some 0x10FFF0) := by decide +kernel
theorem test_write_of_unlisted_byte_removes_the_cell : Memory.write [(5, 1), (7, 2)] 5 0 = [(7, 2)] := by decide

/-! ### One step: section 2.6 -/

theorem test_mov1 :
    regAfter (((State.put (code [0x88, 0x00]) 0x0610 [0xCA, 0xFE]).withReg .bx 0x0600).withReg .si 0x0010) .ax =
    some 0xCAFE := by decide +kernel
theorem test_mov2_moves_16_bits :
    regAfter (((code [0x88, 0xC7]).withReg .ax 0x1111).withReg .di 0x2222) .ax = some 0x2222 := by decide +kernel
theorem test_mov4 :
    regAfter ((State.put (code [0x89, 0x57, 0x10]) 0x0610 [0xCA, 0xFE]).withReg .bx 0x0600) .dx = some 0xCAFE := by
  decide +kernel
theorem test_mov6 : wordAfter ((code [0x8A, 0x1E, 0x00, 0x05]).withReg .bx 0xBEEF) 0x0500 = some (0xBE, 0xEF, 0x0104) := by
  decide +kernel
theorem test_mov8 : wordAfter ((code [0x8B, 0x1F]).withReg .bx 0x0600) 0x0600 = some (0x06, 0x00, 0x0102) := by
  decide +kernel
theorem test_mov10_reg_ignored :
    regAfter (((code [0x8C, 0xC3]).withSeg .ds 0x1234).withSeg .es 0x9999) .bx = some 0x1234 := by decide +kernel
theorem test_mov11 : regAfter (code [0x8C, 0xC9]) .cx = some 0xF000 := by decide +kernel
theorem test_mov13 :
    ((after ((code [0x8E, 0xD2]).withReg .dx 0x0030)).map fun t => t.seg) = some ⟨0, 0xF000, 0x0030, 0⟩ := by decide +kernel
theorem test_mov14 : regAfter (State.put (code [0xA0, 0x00, 0x05]) 0x0500 [0xBE, 0xEF]) .ax = some 0xBEEF := by
  decide +kernel
theorem test_mov15_no_wrap : regAfter (State.put (code [0xA1, 0xFF, 0xFF]) 0xFFFF [0x11, 0x22]) .ax = some 0x1122 := by
  decide +kernel
theorem test_mov16 : wordAfter ((code [0xA2, 0x00, 0x05]).withReg .ax 0x1234) 0x0500 = some (0x12, 0x34, 0x0103) := by
  decide +kernel
theorem test_mov17 : wordAfter ((code [0xA3, 0x00, 0x05]).withReg .ax 0xBEEF) 0x0500 = some (0xBE, 0xEF, 0x0103) := by
  decide +kernel
theorem test_mov19_zero_extends : regAfter (code [0xB0, 0xFF]) .ax = some 0x00FF := by decide +kernel
theorem test_mov20_index_4_is_sp : regAfter ((code [0xB4, 0x01]).withReg .sp 0x1234) .sp = some 0x0001 := by decide +kernel
theorem test_byte_immediates_name_their_register :
    [(0xB1, GReg.cx), (0xB2, .dx), (0xB3, .bx), (0xB5, .bp), (0xB6, .si), (0xB7, .di)].map
      (fun p => regAfter (code [p.1, 0x7F]) p.2) = List.replicate 6 (some 0x007F) := by decide +kernel
theorem test_word_immediates_name_their_register :
    [(0xB8, GReg.ax), (0xB9, .cx), (0xBA, .dx), (0xBB, .bx), (0xBC, .sp), (0xBD, .bp), (0xBE, .si), (0xBF, .di)].map
      (fun p => regAfter (code [p.1, 0xFE, 0xCA]) p.2) = List.replicate 8 (some 0xCAFE) := by decide +kernel
theorem test_mov25 :
    wordAfter ((code [0xC6, 0x46, 0x02, 0xFF]).withReg .bp 0x0700) 0x0702 = some (0x00, 0xFF, 0x0104) := by decide +kernel
theorem test_mov28 :
    wordAfter (((code [0xC7, 0x80, 0x00, 0x01, 0xEF, 0xBE]).withReg .bx 0x1000).withReg .si 0x0020) 0x1120 =
    some (0xBE, 0xEF, 0x0106) := by decide +kernel

/-- MOV29: a store cut at the end of memory keeps its first byte and aborts with IP unchanged. -/
def cutStore : State :=
  (((code [0xA3, 0xFF, 0xFF]).withReg .ax 0xABCD).withSeg .ds 0xFFFF).withParams { defaultParams with eaSeg := .ds }

theorem test_mov29_first_byte_stays : ((after cutStore).map fun t => t.mem.read 0x10FFEF) = some 0xAB := by decide +kernel
theorem test_mov29_aborts :
    runAfter cutStore = some (.aborted (.outOfRange 0x10FFF0 0xF000 0x0100 (some 0xA3)), 0x0100) := by decide +kernel
theorem test_mov30_byte_rows_removed :
    runAfter ((code [0xB0, 0x7F]).withParams { defaultParams with byteRows := false }) =
    some (.aborted (.unrecognizedEncoding 0xB0 0xF000 0x0100), 0x0100) := by decide +kernel

/-! ### HLT and errors: sections 2.7 and 2.8 -/

theorem test_hlt1 : after (code [0xF4]) = some { code [0xF4] with run := .halted, ip := 0x0101 } := by decide +kernel

/-- HLT3: HLT at 0000:FFFF with IP wrap; the read-ahead bytes come from the bottom of the segment. -/
def hltAtTop : State :=
  ((State.put State.reset 0xFFFF [0xF4]).atPos 0x0000 0xFFFF).withParams { defaultParams with ipWrap16 := true }

theorem test_hlt3 : runAfter hltAtTop = some (.halted, 0x0000) := by decide +kernel

/-- Bytes at the end of memory, CS:IP on the first of them. -/
def atEnd (ip : Nat) (bs : List Byte) : State := (State.put State.reset (0xFFFF0 + ip) bs).atPos 0xFFFF ip

theorem test_hlt4 :
    runAfter (atEnd 0xFFFF [0xF4]) = some (.aborted (.outOfRange 0x10FFF0 0xFFFF 0xFFFF (some 0xF4)), 0xFFFF) := by
  decide +kernel
theorem test_err1 : after (code [0xFF]) = some { code [0xFF] with run := .aborted (.unrecognizedEncoding 0xFF 0xF000 0x0100) } := by
  decide +kernel
theorem test_err4 :
    runAfter (code [0x8C, 0x06, 0x00, 0x05]) =
    some (.aborted (.unsupportedAddressingForm 0x8C 0x06 0xF000 0x0100), 0x0100) := by decide +kernel
theorem test_err9 :
    (State.move 0x88 2 (some (.mem 0x0500)) (some (.mem 0x0600)) State.reset).run =
    .aborted (.invalidOperandCombination 0x88 0xF000 0x0100 (some (.mem 0x0500)) (some (.mem 0x0600))) := by decide +kernel
theorem test_err11 :
    runAfter (atEnd 0x10000 []) = some (.aborted (.outOfRange 0x10FFF0 0xFFFF 0x10000 none), 0x10000) := by decide +kernel
theorem test_err12_miss_before_read_ahead :
    runAfter (atEnd 0xFFFF [0xFF]) = some (.aborted (.unrecognizedEncoding 0xFF 0xFFFF 0xFFFF), 0xFFFF) := by decide +kernel
theorem test_err13_read_ahead_before_form :
    runAfter (atEnd 0xFFFE [0x8C, 0x06]) = some (.aborted (.outOfRange 0x10FFF0 0xFFFF 0xFFFE (some 0x8C)), 0xFFFE) := by
  decide +kernel
/-- R227 item 5: the immediate of C7 with a direct address lies beyond the end of memory (hand calculation). -/
theorem test_consumed_byte_beyond_read_ahead :
    runAfter (atEnd 0xFFFC [0xC7, 0x06, 0x00, 0x05]) =
    some (.aborted (.outOfRange 0x10FFF0 0xFFFF 0xFFFC (some 0xC7)), 0xFFFC) := by decide +kernel
/-- R130: a row of shape W R I added at 0x41 loads CX (hand calculation). -/
theorem test_added_row :
    regAfter ((code [0x41, 0x7F]).withParams { defaultParams with table := rowRegImm 0x41 2 :: defaultTable }) .cx =
    some 0x007F := by decide +kernel

/-! ### Witnesses: states and operands that meet the hypotheses of each obligation, clause by clause -/

/-- A launch with an image of two bytes, registers and flags set, a cell above the image and one below it. -/
def someLaunch : LaunchArgs :=
  { LaunchArgs.zeros .dx with
    gpr := ⟨1, 2, 0xABCD, 4, 5, 6, 7, 8⟩, flags := ⟨true, true, true, true, true, true, true, true, true⟩
    mem := [(0x0500, 0x11), (0xF0102, 0x22)], image := [0xF4, 0x90] }

theorem table_is_taken : tableOk defaultTable = true := by decide +kernel

theorem launch_is_ok (x : LaunchArgs) (h : x.params = defaultParams) (l : x.image.length ≤ imageLimit) :
    launch x = .ok (loaderInit x) := by
  unfold launch
  rw [if_neg (by rw [h, show defaultParams.table = defaultTable from rfl, table_is_taken]; decide),
    if_neg (Nat.not_lt.2 l)]

theorem witness_LaunchEstablishesLoaderState :
    launch someLaunch = .ok (loaderInit someLaunch) ∧ GReg.ax ≠ someLaunch.designated ∧ SReg.es ≠ .cs ∧
    1 < someLaunch.image.length ∧ (0xF00FF < 0xF0100) ∧ 0xF0100 + someLaunch.image.length ≤ 0xF0102 :=
  ⟨launch_is_ok _ rfl (by decide), by decide⟩

theorem witness_LaunchRefusesBadTablesAndLongImages :
    tableOk (({ defaultParams with table := [rowRegImm 0xB8 2] } : Params).table) = false ∧
    (∃ x : LaunchArgs, tableOk x.params.table = true ∧ x.image.length = 0x1FEF1) ∧
    (∃ x : LaunchArgs, tableOk x.params.table = true ∧ x.image.length = 0x1FEF0) :=
  ⟨by decide,
    ⟨{ LaunchArgs.zeros .ax with image := List.replicate 0x1FEF1 0 }, table_is_taken, List.length_replicate⟩,
    ⟨{ LaunchArgs.zeros .ax with image := List.replicate 0x1FEF0 0 }, table_is_taken, List.length_replicate⟩⟩

theorem witness_LaunchSatisfiesInvariant : ∃ s, launch someLaunch = .ok s := ⟨_, launch_is_ok _ rfl (by decide)⟩

/-- The invariant of the small states the witnesses use. -/
theorem inv_of_running {s : State} (m : s.mem.wf = true) (i : s.ip < 0x10000) (r : s.run = .running) : s.Inv :=
  ⟨m, fun _ => i, by simp [r]⟩

/-- A step that answers a next state, from the decidable check on it. -/
theorem next_of_after {s : State} (h : (after s).isSome = true) : ∃ t, step s = .next t := by
  unfold after at h
  cases hs : step s with
  | next t => exact ⟨t, rfl⟩
  | fault f => cases f
  | refused r => simp [hs] at h

theorem witness_StepKeepsInvariant :
    (code [0xB8, 0x34, 0x12]).Inv ∧ ∃ t, step (code [0xB8, 0x34, 0x12]) = .next t :=
  ⟨inv_of_running (by decide +kernel) (by decide) rfl, next_of_after (by decide +kernel)⟩

theorem witness_StepKeepsInvariant_wrap :
    hltAtTop.Inv ∧ hltAtTop.params.ipWrap16 = true ∧ ∃ t, step hltAtTop = .next t :=
  ⟨inv_of_running (by decide +kernel) (by decide) rfl, rfl, next_of_after (by decide +kernel)⟩

theorem witness_StepKeepsInvariant_abort :
    ∃ t, (after cutStore) = some t ∧ ∃ e, t.run = .aborted e ∧ e.position = (t.seg.cs, t.ip) := by
  have h : (after cutStore).isSome = true := by decide +kernel
  obtain ⟨t, ht⟩ := Option.isSome_iff_exists.1 h
  have hr := test_mov29_aborts
  have hc : (after cutStore).map (fun t => t.seg.cs) = some 0xF000 := by decide +kernel
  simp only [runAfter, ht, Option.map_some, Option.some.injEq, Prod.mk.injEq] at hr hc
  exact ⟨t, ht, _, hr.1, by rw [hc, hr.2]; rfl⟩

theorem witness_CanonicalMemoriesWithEqualBytesAreEqual :
    Memory.wf [(0, 1), (0x10FFEF, 2)] = true ∧ Memory.wf [(5, 0)] = false ∧ Memory.wf [(5, 1), (5, 2)] = false := by decide

theorem witness_DecodeOfEncodeIsInstruction : (Instr.movRmImm16 (.disp16 .bp 0xFFFF) 0xFFFF).wf = true := by decide

theorem witness_EncodeOfDecodeIsBytes :
    decode [0xC7, 0x86, 0xFF, 0xFF, 0xFF, 0xFF, 0x01] = .ok (.movRmImm16 (.disp16 .bp 0xFFFF) 0xFFFF, [0x01]) := by decide

theorem witness_DecoderRefusesExactlyTheListedForms :
    defaultRow 0xFF = none ∧ (BitVec.toNat (0xBF : Byte) / 64 ≠ 3) ∧ (3 < BitVec.toNat (0xC4 : Byte) % 8) ∧
    (BitVec.toNat (0xC8 : Byte) / 8 % 8 ≠ 0) := by decide

theorem witness_TableLookupIsExactAndConstant :
    defaultParams.lookup 0xF4 = some (rowNone 0xF4) ∧ defaultParams.byteRows = true ∧
    bytesDistinct defaultParams.table = true ∧ rowNone 0xF4 ∈ defaultParams.table ∧ defaultParams.lookup 0xFF = none := by
  decide +kernel

/-- A six-byte instruction at the reset code position, and its bytes there. -/
def sixBytes : State := code [0xC7, 0x80, 0x00, 0x01, 0xEF, 0xBE]

theorem witness_StepRunsDecodedInstruction :
    sixBytes.run = .running ∧ decode sixBytes.window = .ok (.movRmImm16 (.disp16 .bxSi 0x0100) 0xBEEF, []) ∧
    (∀ k, k ≤ 3 → sixBytes.fetchAddr k < Config.cap) ∧ sixBytes.params.lookup 0xC7 = defaultRow 0xC7 := by decide +kernel

theorem witness_StepRunsEncodedBytes :
    (Instr.movRmImm16 (.disp16 .bxSi 0x0100) 0xBEEF).wf = true ∧
    (encode (.movRmImm16 (.disp16 .bxSi 0x0100) 0xBEEF)) = [0xC7, 0x80, 0x00, 0x01, 0xEF, 0xBE] ∧
    sixBytes.window = [0xC7, 0x80, 0x00, 0x01, 0xEF, 0xBE] := by decide +kernel

theorem witness_StepIsTableDrivenStep :
    State.reset.run = .running ∧ ∀ d ∈ State.reset.params.table, d.shapeOk = true := by decide +kernel

theorem witness_TerminalStatesStay :
    (∃ s : State, s.run = .halted) ∧ ∃ (s : State) (e : AbortError), s.run = .aborted e :=
  ⟨⟨{ State.reset with run := .halted }, rfl⟩,
    ⟨State.reset.raise (.unrecognizedEncoding 0xFF 0xF000 0x0100), _, rfl⟩⟩

theorem witness_UnwrappedRunsEnd :
    State.reset.params.ipWrap16 = false ∧ ∀ d ∈ State.reset.params.table, d.shapeOk = true := by decide +kernel

/-- A state whose opcode byte has a row without a decoder path. -/
def badRow : State :=
  (code [0x90]).withParams
    { defaultParams with table := [⟨0x90, .halt, 1, false, false, false, true, false, false, false⟩] }

theorem witness_FlagsAreNeitherReadNorWritten :
    (∃ t, step (code [0xF4]) = .next t) ∧ step badRow = .refused (.rowWithoutDecoderPath 0x90) :=
  ⟨next_of_after (by decide +kernel), by
    have h : badRow.fetchInstr = .refuse (.rowWithoutDecoderPath 0x90) := by decide +kernel
    simp only [step, h, show badRow.run = .running from rfl]⟩

theorem witness_ByteViewsAliasOneRegister : RegRef.seg .es ≠ .gen .ax ∧ RegRef.gen .di ≠ .gen .ax := by decide

theorem witness_ByteAccessTouchesOneCell : 0x10FFEF < 0x10FFF0 ∧ 0x10FFF0 ≤ 0x10FFF0 := by decide

theorem witness_WordAccessIsTwoByteAccesses :
    (State.reset.getByte 0x10FFEE).isOk = true ∧ (State.reset.getByte (0x10FFEE + 1)).isOk = true ∧
    (State.reset.getByte (0x10FFEF + 1)).isOk = false ∧ (State.reset.setByte 1 0x10FFF0).2 = some 0x10FFF0 ∧
    (State.reset.setByte 1 0x10FFEF).2 = none := by decide +kernel

theorem witness_WordReadsBackAfterWordWrite : 0x10FFEE ≤ 0x10FFEE ∧ 0x10FFED + 2 < 0x10FFF0 ∧ 0x10FFED + 1 = 0x10FFEE := by
  decide

/-- The four settings of `P_EA_SEG` and `P_EA_WRAP16`. -/
theorem witness_OperandOfEachRmForm :
    (∃ s : State, s.params.eaSeg = .unsegmented ∧ s.params.eaWrap16 = false) ∧
    (∃ s : State, s.params.eaSeg = .ds ∧ s.params.eaWrap16 = true) :=
  ⟨⟨State.reset, rfl, rfl⟩,
    ⟨State.reset.withParams { defaultParams with eaSeg := .ds, eaWrap16 := true }, rfl, rfl⟩⟩

theorem witness_ModRMFieldsAndForms : (5 : BitVec 3) ≠ 6 ∧ State.reset.params.eaWrap16 = false := by decide

theorem witness_UnsegmentedMemoryOperandsAreInRange :
    eaState.params.eaSeg = .unsegmented ∧ loadAddr (.movRegRm .ax (.base .bxSi)) eaState = some 0x1020 ∧
    storeOf (.movMemAx 0xFFFF) eaState = some (0xFFFF, 0) := by decide +kernel

theorem witness_ByteImmediateLoadsWholeRegister : BitVec.toNat (0x00FF : Word) = BitVec.toNat (0xFF : Byte) := by decide

theorem witness_WordImmediateLoadsRegister :
    BitVec.toNat (0xCAFE : Word) = BitVec.toNat (0xFE : Byte) + 256 * BitVec.toNat (0xCA : Byte) := by decide

/-- A memory operand whose word is the last of memory, under `P_EA_SEG = DS`: DS = 0xFFFF, offset 0xFFFE. -/
def lastWord : State :=
  (State.put (State.withSeg State.reset .ds 0xFFFF) 0x10FFEE [0xCA, 0xFE]).withParams { defaultParams with eaSeg := .ds }

theorem witness_ModRMLoadsRegister :
    lastWord.resolve (.direct 0xFFFE) = .mem 0x10FFEE ∧ 0x10FFEE + 1 < Config.cap ∧
    BitVec.toNat (0xCAFE : Word) =
      256 * (lastWord.mem.read 0x10FFEE).toNat + (lastWord.mem.read (0x10FFEE + 1)).toNat := by decide +kernel

theorem witness_ModRMStoresRegister :
    lastWord.resolve (.direct 0xFFFE) = .mem 0x10FFEE ∧ 0x10FFEE + 1 < Config.cap ∧
    State.reset.resolve (.reg .cx) = .reg (.gen .cx) := by decide +kernel

theorem witness_SegmentMovesPairByRm :
    [SReg.es, .cs, .ss, .ds].map SReg.paired = [GReg.ax, .cx, .dx, .bx] := by decide

theorem witness_DirectLoadsAccumulator :
    lastWord.eaLinear (BitVec.toNat (0xFFFE : Word)) = 0x10FFEE ∧ 0x10FFEE + 1 < Config.cap ∧
    BitVec.toNat (0xCAFE : Word) =
      256 * (lastWord.mem.read 0x10FFEE).toNat + (lastWord.mem.read (0x10FFEE + 1)).toNat := by decide +kernel

theorem witness_DirectStoresAccumulator :
    lastWord.eaLinear (BitVec.toNat (0xFFFE : Word)) = 0x10FFEE ∧ 0x10FFEE + 1 < Config.cap := by decide +kernel

theorem witness_ImmediateStoresToRegisterOrMemory :
    BitVec.toNat (0x00FF : Word) = BitVec.toNat (0xFF : Byte) ∧ lastWord.resolve (.direct 0xFFFE) = .mem 0x10FFEE ∧
    0x10FFEE + 1 < Config.cap := by decide +kernel

theorem witness_DataAccessOutsideMemoryAborts :
    loadAddr (.movAxMem 0xFFFF) lastWord = some 0x10FFEF ∧ Config.cap ≤ 0x10FFEF + 1 ∧
    storeOf (.movMemAx 0xFFFF) lastWord = some (0x10FFEF, 0) ∧ 0x10FFEF + 1 = Config.cap ∧
    storeOf (.movRmImm16 (.disp8 .bxSi 0x01) 7) ((lastWord.withReg .bx 0xFFFF).withReg .si 0) = some (0x10FFF0, 7) ∧
    Config.cap ≤ 0x10FFF0 := by decide +kernel

theorem witness_UnsegmentedInstructionsComplete : State.reset.params.eaSeg = .unsegmented ∧ Instr.movAxMem 0 ≠ .hlt := by
  decide

theorem witness_WidthClearRowsMoveWords : State.reset.params.eaSeg = .unsegmented := by decide

theorem witness_OnlySegmentMoveWritesSegmentRegisters :
    ∃ t, exec (.movSegGpr 1 .cs) ((code []).withReg .cx 0xE000) = .next t ∧
      t.seg.read .cs ≠ ((code []).withReg .cx 0xE000).seg.read .cs :=
  ⟨_, rfl, by decide⟩

theorem witness_CodePositionChangesOnlyByAdvanceOrCsWrite :
    ∃ t, exec (.movSegGpr 1 .cs) ((code []).withReg .cx 0xE000) = .next t ∧ t.clean ∧ t.seg.cs ≠ 0xF000 :=
  ⟨_, rfl, (fun e h => nomatch h), by decide⟩

theorem witness_CsWriteMovesNextFetch : State.reset.params.ipWrap16 = false := by decide

theorem witness_OnlyTheStoredWordChangesInMemory :
    ∃ t, exec (.movRmImm16 (.direct 0x0500) 0x1234) State.reset = .next t ∧ t.mem.read 0x0501 ≠ State.reset.mem.read 0x0501 :=
  ⟨_, rfl, by decide +kernel⟩

/-- P6: the first instruction stores over the next one. -/
def selfModifying : State :=
  (State.put State.reset 0x0100 [0xC7, 0x06, 0x06, 0x01, 0xF4, 0xF4, 0xFF]).atPos 0x0000 0x0100

theorem witness_StoredBytesAreFetched :
    storeOf (.movRmImm16 (.direct 0x0106) 0xF4F4) selfModifying = some (0x0106, 0xF4F4) ∧ 0x0106 + 1 < Config.cap ∧
    (after selfModifying).map (fun t => (t.fetchAddr 0, t.fetchAddr 1)) = some (0x0106, 0x0107) := by decide +kernel

theorem witness_DataSegmentsAffectOnlySegmentReads :
    ∃ t, exec (.movSegGpr 0 .ds) State.reset = .next t ∧ State.reset.params.eaSeg = .unsegmented ∧
      (⟨1, 0xF000, 2, 3⟩ : Segs).cs = State.reset.seg.cs ∧ ∀ ign r, Instr.movSegGpr 0 .ds ≠ .movGprSeg ign r :=
  ⟨_, rfl, rfl, rfl, by simp⟩

theorem witness_UnrecognizedByteAborts :
    (code [0xFF]).run = .running ∧ (code [0xFF]).mem.read ((code [0xFF]).fetchAddr 0) = 0xFF ∧
    (code [0xFF]).fetchAddr 0 < Config.cap ∧ (code [0xFF]).params.lookup 0xFF = none := by decide +kernel

theorem witness_UnsupportedFormAborts :
    (code [0x8C, 0xC4]).window = [0x8C, 0xC4, 0, 0, 0, 0] ∧ (∀ k, k ≤ 3 → (code [0x8C, 0xC4]).fetchAddr k < Config.cap) ∧
    (code [0x8C, 0xC4]).params.lookup 0x8C = defaultRow 0x8C ∧ 3 < BitVec.toNat (0xC4 : Byte) % 8 := by decide +kernel

theorem witness_FetchOutsideMemoryAborts :
    Config.cap ≤ (atEnd 0x10000 []).fetchAddr 0 ∧
    ((atEnd 0xFFFF [0xF4]).fetchAddr 0 < Config.cap ∧ Config.cap ≤ (atEnd 0xFFFF [0xF4]).fetchAddr 1 ∧
      (atEnd 0xFFFF [0xF4]).params.lookup 0xF4 = some (rowNone 0xF4) ∧ (rowNone 0xF4).shapeOk = true) ∧
    ((atEnd 0xFFFC [0xC7, 0x06, 0x00, 0x05]).window = (encode (.movRmImm16 (.direct 0x0500) 0x1234)).take 4 ∧
      Config.cap ≤ (atEnd 0xFFFC []).fetchAddr 4 ∧ 4 < (encode (.movRmImm16 (.direct 0x0500) 0x1234)).length) := by
  decide +kernel

theorem witness_AbortChangesNothingElse :
    cutStore.run = .running ∧ (∃ t, step cutStore = .next t) ∧
    runAfter cutStore = some (.aborted (.outOfRange 0x10FFF0 0xF000 0x0100 (some 0xA3)), 0x0100) :=
  ⟨rfl, next_of_after (by decide +kernel), test_mov29_aborts⟩

theorem witness_MoveRejectsExactlyTheListedPairs :
    movePair (some (.mem 0)) (some (.mem 1)) = none ∧ movePair (some (.imm 1)) (some (.reg (.gen .ax))) = none ∧
    movePair none (some (.imm 1)) = none ∧ movePair (some (.mem 0)) (some (.imm 1)) = some (.mem 0, .imm 1) ∧
    State.reset.run = .running := by decide

theorem witness_NoInstructionRaisesInvalidOperands :
    State.reset.run = .running ∧ ∃ t, exec (.movMemAx 0) State.reset = .next t := ⟨rfl, _, rfl⟩

/-- The state of MOV30. -/
def noByteRows (b : Byte) : State := (code [b]).withParams { defaultParams with byteRows := false }

theorem witness_ByteRowsParameterRemovesWidthClearRows :
    (noByteRows 0xB0).run = .running ∧ (noByteRows 0xB0).params.table = defaultTable ∧
    (noByteRows 0xB0).params.byteRows = false ∧ (noByteRows 0xB0).window = [0xB0, 0, 0, 0, 0, 0] ∧
    (noByteRows 0xF4).window = [0xF4, 0, 0, 0, 0, 0] := by decide +kernel

/-- The table of the added rows of R130. -/
def addedRows : Params := { defaultParams with table := rowRegImm 0x41 2 :: rowRegImm 0x4F 3 :: defaultTable }

theorem witness_RegisterImmediateRowRunsAtAnyByte :
    ((code [0x41, 0x7F, 0]).withParams addedRows).window = [0x41, 0x7F, 0, 0, 0, 0] ∧
    addedRows.lookup 0x41 = some (rowRegImm 0x41 2) ∧ addedRows.lookup 0x4F = some (rowRegImm 0x4F 3) ∧
    (0x41 : Byte).getLsbD 3 = false ∧ (0x4F : Byte).getLsbD 3 = true ∧
    BitVec.toNat (0x007F : Word) = BitVec.toNat (0x7F : Byte) := by decide +kernel

end Sys2Proof.Slice0
end

section
/-! What an instruction and a step can leave, said once. Every invariant below is read off `Ends`: an abort that keeps
everything but memory and RUN, or one update followed by the advance (R142, R148). -/

namespace Sys2Proof.Machine

/-- The state `t` in which running an instruction of `n` bytes with destination slot `op1` can end from `s` (R142): an abort
recording the code position of `s` (R148, R225), a register write, a memory write or the halt, each completed by the advance
(R146, R147). Memory keeps its canonical form. -/
inductive Ends (s : State) (op1 : Option Operand) (n : Nat) : State → Prop where
  | abort (m : Memory) (e : AbortError) (wf : s.mem.wf = true → m.wf = true) (position : e.position = (s.seg.cs, s.ip)) :
      Ends s op1 n (State.raise { s with mem := m } e)
  | register (r : RegRef) (v : Word) (slot : op1 = some (.reg r)) : Ends s op1 n ((s.writeReg r v).advance n)
  | memory (m : Memory) (wf : s.mem.wf = true → m.wf = true) : Ends s op1 n (State.advance { s with mem := m } n)
  | halt : Ends s op1 n (s.halt n)

/-! ### Laws of single operations -/

/-- A word write reads of the state only its memory. -/
theorem setWord_of_mem {s t : State} (h : t.mem = s.mem) (v : Word) (a : Nat) :
    ∃ m o, s.setWord v a = ({ s with mem := m }, o) ∧ t.setWord v a = ({ t with mem := m }, o) := by
  rcases setWord_cases s v a with ⟨ha, hs⟩ | ⟨ha, hs⟩ | ⟨ha, hs⟩
  · exact ⟨_, _, hs, by rw [setWord_ok v ha, h]⟩
  · exact ⟨_, _, hs, by rw [setWord_last v ha, h]⟩
  · exact ⟨s.mem, _, hs, by rw [setWord_above v ha, ← h]⟩

theorem exec_of_moveSlots {i : Instr} {s : State} {dst src : Operand} (h : moveSlots i s = some (dst, src)) :
    exec i s = .next (s.move i.opcode i.size (some dst) (some src)) := by
  rcases exec_eq i s with ⟨rfl, -⟩ | ⟨dst', src', h', he⟩
  · cases h
  · rw [h] at h'
    cases h'
    exact he

/-! ### Every operation of a step ends so -/

theorem Ends.raise {s : State} {op1 : Option Operand} {n : Nat} {e : AbortError} (h : e.position = (s.seg.cs, s.ip)) :
    Ends s op1 n (s.raise e) :=
  .abort s.mem e id h

theorem move_ends (opc : Byte) (n : Nat) (op1 op2 : Option Operand) (s : State) : Ends s op1 n (s.move opc n op1 op2) := by
  rcases move_cases opc n op1 op2 s with ⟨-, h⟩ | ⟨dst, src, hp, ⟨a, -, h⟩ | ⟨v, -, hw⟩⟩
  · rw [h]
    exact .raise rfl
  · rw [h]
    exact .raise rfl
  · obtain ⟨rfl, -⟩ := movePair_eq_some hp
    cases dst with
    | reg r =>
      obtain ⟨t, ht, h⟩ | ⟨t, a, ht, -⟩ := hw
      · cases ht
        rw [h]
        exact .register r v rfl
      · cases ht
    | imm w => cases hp
    | mem a =>
      have wf := setWord_wf (s := s) v a
      obtain ⟨m, hm⟩ := setWord_fields s v a
      obtain ⟨t, ht, h⟩ | ⟨t, b, ht, h⟩ := hw
      all_goals
        rw [State.writeOperand] at ht
        rw [ht] at hm wf
        obtain rfl : t = { s with mem := m } := hm
        rw [h]
      · exact .memory m wf
      · exact .abort m _ wf rfl

theorem dispatch_ends (opc : Byte) (d : Decoded) (s : State) : Ends s d.op1 d.size (s.dispatch opc d) := by
  unfold State.dispatch
  split
  · exact move_ends _ _ _ _ _
  · exact .halt

theorem instrSize_pos (i : Instr) : 1 ≤ i.size := by
  cases i <;> simp only [Instr.size] <;> omega

theorem exec_ends {i : Instr} {s t : State} (h : exec i s = .next t) : ∃ op1, Ends s op1 i.size t := by
  rcases exec_next i s with ⟨op1, op2, he⟩ | ⟨rfl, he⟩ <;> rw [he] at h <;> cases h
  · exact ⟨op1, move_ends _ _ _ _ _⟩
  · exact ⟨none, .halt⟩

/-! ### A decoded row consumes its opcode byte (R120) -/

@[simp] theorem sideSlots_n (b : Bool) (p q : Option Operand) (n : Nat) : (sideSlots b p q n).n = n := by
  unfold sideSlots
  split <;> rfl

@[simp] theorem fillSlot_n (x : Slots) (v : Word) (n : Nat) : (fillSlot x v n).n = n := by
  unfold fillSlot
  split <;> rfl

@[simp] theorem stepRegister_n (d : Desc) (opc : Byte) (x : Slots) : (stepRegister d opc x).n = x.n := by
  unfold stepRegister
  split <;> rfl

theorem fetchSide_n_le {s : State} {opc : Byte} {mod : BitVec 2} {rm : BitVec 3} {n : Nat} {p : Operand × Nat}
    (h : s.fetchSide opc mod rm n = .ok p) : n ≤ p.2 := by
  unfold State.fetchSide at h
  split at h
  · cases h
    exact Nat.le_refl n
  split at h
  · split at h <;> cases h
    exact Nat.le_add_right n 2
  split at h
  · split at h <;> cases h
    exact Nat.le_add_right n 1
  split at h
  · split at h <;> cases h
    exact Nat.le_add_right n 2
  · cases h
    exact Nat.le_refl n

theorem stepModRM_n_le {s : State} {d : Desc} {opc : Byte} {x y : Slots} (h : s.stepModRM d opc x = .ok y) :
    x.n ≤ y.n := by
  unfold State.stepModRM at h
  split at h
  · split at h
    · cases h
    split at h
    · split at h
      · cases h
      · split at h <;> cases h
        simp
    · split at h
      · cases h
      · split at h <;> cases h
        have := fetchSide_n_le ‹_›
        simp only [sideSlots_n] at this ⊢
        omega
  · cases h
    exact Nat.le_refl _

theorem stepImmediate_n_le {s : State} {d : Desc} {opc : Byte} {x y : Slots} (h : s.stepImmediate d opc x = .ok y) :
    x.n ≤ y.n := by
  unfold State.stepImmediate at h
  split at h
  · split at h
    · split at h <;> cases h
      simp
    · split at h <;> cases h
      simp
  · cases h
    exact Nat.le_refl _

theorem stepDirect_n_le {s : State} {d : Desc} {opc : Byte} {x y : Slots} (h : s.stepDirect d opc x = .ok y) :
    x.n ≤ y.n := by
  unfold State.stepDirect at h
  split at h
  · split at h <;> cases h
    simp
  · cases h
    exact Nat.le_refl _

theorem decodeRow_size_pos {s : State} {d : Desc} {opc : Byte} {x : Decoded} (h : s.decodeRow d opc = .ok x) :
    1 ≤ x.size := by
  unfold State.decodeRow at h
  split at h
  · cases h
  · split at h
    · cases h
    · split at h <;> cases h
      rename_i hz
      have h1 := stepModRM_n_le ‹_›
      have h2 := stepImmediate_n_le ‹_›
      have h3 := stepDirect_n_le hz
      simp only [stepRegister_n] at h1 h2 h3 ⊢
      omega

theorem runRow_ends (opc : Byte) (d : Desc) (s : State) : ∃ op1 n, 1 ≤ n ∧ Ends s op1 n (s.runRow opc d) := by
  unfold State.runRow
  split
  · exact ⟨none, 1, Nat.le_refl 1, .raise (decodeRow_position ‹_›)⟩
  · exact ⟨_, _, decodeRow_size_pos ‹_›, dispatch_ends _ _ _⟩

/-! ### The step -/

/-- A step stays in a terminal state, or from a Running state runs an instruction of at least one byte to an end. -/
theorem step_ends {s t : State} (h : step s = .next t) :
    (s.terminal ∧ t = s) ∨ (s.run = .running ∧ ∃ op1 n, 1 ≤ n ∧ Ends s op1 n t) := by
  rcases step_cases s with ⟨ht, hs⟩ | ⟨hr, ⟨i, -, hs⟩ | ⟨opc, d, -, hs⟩ | ⟨e, he, hs⟩ | ⟨r, -, hs⟩⟩ <;> rw [hs] at h
  · cases h
    exact .inl ⟨ht, rfl⟩
  · obtain ⟨op1, he⟩ := exec_ends h
    exact .inr ⟨hr, op1, i.size, instrSize_pos i, he⟩
  · cases h
    exact .inr ⟨hr, runRow_ends opc d s⟩
  · cases h
    exact .inr ⟨hr, none, 1, Nat.le_refl 1, .raise (fetchInstr_position he)⟩
  · cases h

theorem step_of_terminal {s : State} (h : s.terminal) : step s = .next s := by
  rcases step_cases s with ⟨-, hs⟩ | ⟨hr, -⟩
  · exact hs
  · exact absurd hr h

end Sys2Proof.Machine
end

section
/-! The invariant at the start of a run and over a step. -/

namespace Sys2Proof.Machine

/-- An offset used as the next IP is below 2^16 under `P_IP_WRAP16` (R31, R146). -/
theorem codeOffset_lt {s : State} (h : s.params.ipWrap16 = true) (off : Nat) : s.codeOffset off < 0x10000 := by
  simp only [State.codeOffset, h, if_true]
  exact Nat.mod_lt _ (by decide)

/-- A state that has not aborted has no recorded position to check. -/
theorem inv_of_clean {s : State} (memory : s.mem.wf = true) (ip : s.params.ipWrap16 = true → s.ip < 0x10000)
    (clean : s.clean) : s.Inv :=
  ⟨memory, ip, fun e he => absurd he (clean e)⟩

theorem clean_of_running {s : State} (h : s.run = .running) : s.clean := by
  simp [State.clean, h]

/-- Every end of an instruction from a Running state with the invariant has it. -/
theorem Ends.inv {s t : State} {op1 : Option Operand} {n : Nat} (h : Ends s op1 n t) (hs : s.Inv)
    (hr : s.run = .running) : t.Inv := by
  cases h with
  | abort m e wf position =>
    refine ⟨wf hs.memory, hs.ip, fun e' he => ?_⟩
    obtain rfl : e = e' := by simpa using he
    exact position
  | register r v slot =>
    have hc : (s.writeReg r v).clean := clean_of_running (by simpa using hr)
    refine inv_of_clean (by simpa using hs.memory) (fun hw => ?_) hc
    rw [advance_params] at hw
    exact codeOffset_lt hw _
  | memory m wf => exact inv_of_clean (wf hs.memory) (fun hw => codeOffset_lt hw _) (clean_of_running hr)
  | halt => exact inv_of_clean hs.memory (fun hw => codeOffset_lt hw _) (by simp [State.clean])

/-- Settles O6: a terminal state stays, and every end of a Running state's instruction has the invariant. -/
theorem stepKeepsInvariant : Obligations.StepKeepsInvariant := by
  intro s t hs h
  rcases step_ends h with ⟨-, rfl⟩ | ⟨hr, op1, n, -, he⟩
  · exact hs
  · exact he.inv hs hr

/-- The image of a launch that is not refused ends inside memory (R252). -/
theorem image_fits {x : LaunchArgs} (h : x.image.length ≤ imageLimit) : imageBase + x.image.length ≤ Config.cap := by
  have : imageBase ≤ Config.cap := by decide
  unfold imageLimit at h
  omega

/-- Settles O5: the loader writes memory by operations that keep its form, and sets IP to 0x0100 and RUN to Running. -/
theorem launchSatisfiesInvariant : Obligations.LaunchSatisfiesInvariant := by
  intro x s h
  obtain ⟨table, image, rfl⟩ := launch_eq_ok h
  have memory : (loaderInit x).mem.wf = true := Memory.wf_copy (image_fits image) (Memory.wf_ofCells x.mem)
  have ip : (loaderInit x).ip < 0x10000 := by
    show 0x0100 < 0x10000
    decide
  exact ⟨inv_of_clean memory (fun _ => ip) (clean_of_running rfl), table, rfl⟩

theorem tableOk_defaultTable : tableOk defaultTable = true := by decide

/-- The loader makes of the zero launch the reset state. -/
theorem loaderInit_zeros (r : GReg) : loaderInit (LaunchArgs.zeros r) = State.reset := by
  cases r <;> rfl

/-- Settles O3: the default table and the empty image are taken, and the loader's state is the reset state. -/
theorem resetIsLaunchOfZeros : Obligations.ResetIsLaunchOfZeros := by
  refine ⟨fun r => ?_, rfl, rfl, rfl, rfl, fun r => by cases r <;> rfl⟩
  have table : tableOk (LaunchArgs.zeros r).params.table = true := tableOk_defaultTable
  have image : ¬ imageLimit < (LaunchArgs.zeros r).image.length := Nat.not_lt_zero _
  simp [launch, table, image, loaderInit_zeros]

/-- Settles O4: the reset state is a launch's state (O3, O5). -/
theorem resetSatisfiesInvariant : Obligations.ResetSatisfiesInvariant := by
  obtain ⟨hl, -⟩ := resetIsLaunchOfZeros
  obtain ⟨inv, table, -⟩ := launchSatisfiesInvariant _ _ (hl .ax)
  exact ⟨inv, table⟩

end Sys2Proof.Machine
end

section
/-! Without IP wrap every run ends: IP grows with every step that stays Running, and no opcode byte is fetched from an IP at
or above the capacity (R156; decision D9). -/

namespace Sys2Proof.Machine

/-! ### Runs -/

theorem run_succ {s t : State} (k : Nat) (h : step s = .next t) :
    Host.Core.run core (k + 1) s = Host.Core.run core k t := by
  have hc : core.step s = .next t := h
  simp only [Host.Core.run, hc]

theorem run_of_terminal {s : State} (h : s.terminal) (k : Nat) : Host.Core.run core k s = .next s := by
  induction k with
  | zero => rfl
  | succ k ih => rw [run_succ k (step_of_terminal h), ih]

/-! ### Progress of one step -/

theorem advance_ip_nowrap {s : State} (h : s.params.ipWrap16 = false) (n : Nat) : (s.advance n).ip = s.ip + n :=
  codeOffset_nowrap h _

/-- An instruction from a Running state keeps the parameters, and ends the run or has moved IP on. -/
theorem Ends.progress {s t : State} {op1 : Option Operand} {n : Nat} (h : Ends s op1 n t) (hn : 1 ≤ n)
    (hw : s.params.ipWrap16 = false) : t.params = s.params ∧ (t.terminal ∨ s.ip < t.ip) := by
  cases h with
  | abort m e wf position => exact ⟨rfl, .inl (by simp [State.terminal])⟩
  | register r v slot =>
    refine ⟨by simp, .inr ?_⟩
    rw [advance_ip_nowrap (by simpa using hw), writeReg_ip]
    omega
  | memory m wf =>
    refine ⟨rfl, .inr ?_⟩
    rw [advance_ip_nowrap (s := { s with mem := m }) hw]
    exact Nat.lt_add_of_pos_right hn
  | halt => exact ⟨rfl, .inl (by simp [State.terminal])⟩

/-- With IP at or above the capacity the opcode byte lies outside memory, whatever CS holds (R51, R102). -/
theorem fetchInstr_above {s : State} (hw : s.params.ipWrap16 = false) (h : Config.cap ≤ s.ip) :
    ∃ e, s.fetchInstr = .abort e := by
  have ha : Config.cap ≤ s.fetchAddr 0 := by
    simp only [State.fetchAddr, lin, codeOffset_nowrap hw]
    omega
  have ho : s.fetchOpcode = .error (.outOfRange (s.fetchAddr 0) s.seg.cs s.ip none) := by
    simp only [State.fetchOpcode, fetch_error none ha]
  refine ⟨.outOfRange (s.fetchAddr 0) s.seg.cs s.ip none, ?_⟩
  simp only [State.fetchInstr, ho]

/-- A table of known shapes is never refused (R97). -/
theorem fetchInstr_ne_refuse {s : State} (h : ∀ d ∈ s.params.table, d.shapeOk = true) (r : Refusal) :
    s.fetchInstr ≠ .refuse r := by
  intro hf
  unfold State.fetchInstr at hf
  split at hf
  · cases hf
  rename_i opc d hd
  have hl : s.params.lookup opc = some d := by
    unfold State.fetchOpcode at hd
    split at hd
    · cases hd
    · split at hd <;> cases hd
      assumption
  rw [if_pos (h d (lookup_some hl).1)] at hf
  split at hf
  · cases hf
  · split at hf
    · split at hf <;> cases hf
    · cases hf

theorem step_next_of_shapes {s : State} (h : ∀ d ∈ s.params.table, d.shapeOk = true) : ∃ t, step s = .next t := by
  rcases step_cases s with ⟨-, hs⟩ | ⟨-, ⟨i, -, hs⟩ | ⟨opc, d, -, hs⟩ | ⟨e, -, hs⟩ | ⟨r, hr, -⟩⟩
  · exact ⟨_, hs⟩
  · obtain ⟨op1, op2, he⟩ | ⟨-, he⟩ := exec_next i s <;> exact ⟨_, hs.trans he⟩
  · exact ⟨_, hs⟩
  · exact ⟨_, hs⟩
  · exact absurd hr (fetchInstr_ne_refuse h r)

/-- From any state a step of an unwrapped run ends it, or raises an IP that was below the capacity. -/
theorem step_progress {s t : State} (hw : s.params.ipWrap16 = false) (h : step s = .next t) :
    t.params = s.params ∧ (t.terminal ∨ (s.ip < Config.cap ∧ s.ip < t.ip)) := by
  rcases step_ends h with ⟨ht, rfl⟩ | ⟨hr, op1, n, hn, he⟩
  · exact ⟨rfl, .inl ht⟩
  · obtain ⟨hp, hip⟩ := he.progress hn hw
    by_cases hc : s.ip < Config.cap
    · exact ⟨hp, hip.imp_right fun hlt => ⟨hc, hlt⟩⟩
    · obtain ⟨e, hf⟩ := fetchInstr_above hw (Nat.not_lt.1 hc)
      simp only [step, hr, hf] at h
      cases h
      exact ⟨rfl, .inl (by simp [State.terminal])⟩

/-- An unwrapped run has ended once it has more steps than addresses are left above IP. -/
theorem run_ends {k : Nat} {s : State} (hw : s.params.ipWrap16 = false) (hd : ∀ d ∈ s.params.table, d.shapeOk = true)
    (hk : Config.cap - s.ip < k) : ∃ t : State, Host.Core.run core k s = .next t ∧ t.terminal := by
  induction k generalizing s with
  | zero => omega
  | succ k ih =>
    obtain ⟨t, hs⟩ := step_next_of_shapes hd
    rw [run_succ k hs]
    obtain ⟨hp, ht | ⟨hlt, hip⟩⟩ := step_progress hw hs
    · exact ⟨t, run_of_terminal ht k, ht⟩
    · exact ih (by rw [hp]; exact hw) (by rw [hp]; exact hd) (by omega)

/-- Settles O18: 0x10FFF1 steps are more than the addresses above any IP. -/
theorem unwrappedRunsEnd : Obligations.UnwrappedRunsEnd := by
  intro s hw hd
  have hk : Config.cap - s.ip < 0x10FFF1 := Nat.lt_succ_of_le (Nat.sub_le _ _)
  exact run_ends hw hd hk

end Sys2Proof.Machine
end

section
/-! Flags are neither read nor written (R30, R151): every part of a step commutes with replacing the flags. -/

namespace Sys2Proof.Machine

/-- The state with other flags. -/
def State.withFlags (s : State) (f : Flags) : State := { s with flags := f }

/-- The outcome with other flags in its next state. -/
def outcomeWithFlags (f : Flags) : Host.Outcome State Fault Refusal → Host.Outcome State Fault Refusal
  | .next s => .next (s.withFlags f)
  | .fault r => .fault r
  | .refused r => .refused r

theorem Ends.flags {s t : State} {op1 : Option Operand} {n : Nat} (h : Ends s op1 n t) : t.flags = s.flags := by
  cases h <;> simp

/-! ### What a step reads of the state holds no flag -/

theorem bytesFrom_withFlags (s : State) (f : Flags) (k n : Nat) : (s.withFlags f).bytesFrom k n = s.bytesFrom k n := by
  induction n generalizing k with
  | zero => rfl
  | succ n ih =>
    simp only [State.bytesFrom, ih]
    rfl

theorem window_withFlags (s : State) (f : Flags) : (s.withFlags f).window = s.window := bytesFrom_withFlags s f 0 6

theorem decodeAbort_withFlags (s : State) (f : Flags) (opc : Byte) (e : DecodeError) :
    (s.withFlags f).decodeAbort opc e = s.decodeAbort opc e := by
  cases e with
  | truncated => simp only [State.decodeAbort, window_withFlags]; rfl
  | unrecognized o => rfl
  | unsupported o m => rfl

theorem fetchInstr_withFlags (s : State) (f : Flags) : (s.withFlags f).fetchInstr = s.fetchInstr := by
  have ho : (s.withFlags f).fetchOpcode = s.fetchOpcode := rfl
  have ha : ∀ opc, (s.withFlags f).readAhead opc = s.readAhead opc := fun _ => rfl
  simp only [State.fetchInstr, ho, ha, window_withFlags, decodeAbort_withFlags]

theorem moveSlots_withFlags (i : Instr) (s : State) (f : Flags) : moveSlots i (s.withFlags f) = moveSlots i s := by
  cases i <;> rfl

theorem readOperand_withFlags (s : State) (f : Flags) (src : Operand) :
    (s.withFlags f).readOperand src = s.readOperand src := by
  cases src with
  | reg r => cases r <;> rfl
  | mem a => rfl
  | imm v => rfl

/-! ### What a step writes keeps the flags apart -/

theorem writeOperand_withFlags (s : State) (f : Flags) (dst : Operand) (v : Word) :
    (s.withFlags f).writeOperand dst v = ((s.writeOperand dst v).1.withFlags f, (s.writeOperand dst v).2) := by
  cases dst with
  | reg r => cases r <;> rfl
  | imm w => rfl
  | mem a =>
    obtain ⟨m, o, hs, hf⟩ := setWord_of_mem (s := s) (t := s.withFlags f) rfl v a
    simp only [State.writeOperand, hs, hf]
    rfl

theorem move_withFlags (opc : Byte) (n : Nat) (op1 op2 : Option Operand) (s : State) (f : Flags) :
    (s.withFlags f).move opc n op1 op2 = (s.move opc n op1 op2).withFlags f := by
  unfold State.move
  cases movePair op1 op2 with
  | none => rfl
  | some p =>
    obtain ⟨dst, src⟩ := p
    simp only [readOperand_withFlags]
    cases s.readOperand src with
    | error a => rfl
    | ok v =>
      simp only [writeOperand_withFlags]
      rcases s.writeOperand dst v with ⟨t, _ | a⟩ <;> rfl

theorem dispatch_withFlags (opc : Byte) (d : Decoded) (s : State) (f : Flags) :
    (s.withFlags f).dispatch opc d = (s.dispatch opc d).withFlags f := by
  unfold State.dispatch
  cases d.kind with
  | move => exact move_withFlags _ _ _ _ _ _
  | halt => rfl

theorem runRow_withFlags (opc : Byte) (d : Desc) (s : State) (f : Flags) :
    (s.withFlags f).runRow opc d = (s.runRow opc d).withFlags f := by
  have hd : (s.withFlags f).decodeRow d opc = s.decodeRow d opc := rfl
  unfold State.runRow
  rw [hd]
  cases s.decodeRow d opc with
  | error e => rfl
  | ok x => exact dispatch_withFlags _ _ _ _

theorem exec_withFlags (i : Instr) (s : State) (f : Flags) :
    exec i (s.withFlags f) = outcomeWithFlags f (exec i s) := by
  rcases exec_eq i s with ⟨rfl, -⟩ | ⟨dst, src, hs, he⟩
  · rfl
  · have hs' := (moveSlots_withFlags i s f).trans hs
    rw [exec_of_moveSlots hs', move_withFlags, he]
    rfl

/-- A step of the state with other flags is the step, with those flags. -/
theorem step_withFlags (s : State) (f : Flags) : step (s.withFlags f) = outcomeWithFlags f (step s) := by
  have hr : (s.withFlags f).run = s.run := rfl
  unfold step
  rw [hr, fetchInstr_withFlags]
  cases s.run with
  | halted => rfl
  | aborted e => rfl
  | running =>
    cases s.fetchInstr with
    | instr i => exact exec_withFlags i s f
    | row opc d => exact congrArg _ (runRow_withFlags opc d s f)
    | abort e => rfl
    | refuse r => rfl

/-- Settles O20: no end of an instruction has other flags, and a step commutes with replacing them. -/
theorem flagsAreNeitherReadNorWritten : Obligations.FlagsAreNeitherReadNorWritten := by
  refine ⟨fun s t h => ?_, fun s t f h => ?_, fun s r f h => ?_, fun x => rfl⟩
  · rcases step_ends h with ⟨-, rfl⟩ | ⟨-, op1, n, -, he⟩
    · rfl
    · exact he.flags
  · exact (step_withFlags s f).trans (congrArg _ h)
  · exact (step_withFlags s f).trans (congrArg _ h)

end Sys2Proof.Machine
end

section
/-! Registers: the byte views, who writes a segment register, and whom its contents reach. -/

namespace Sys2Proof.Machine

/-! ### Byte views (R23, R25) -/

@[simp] theorem setHi_toNat (r : Word) (b : Byte) : (setHi r b).toNat = 256 * b.toNat + r.toNat % 256 := by
  rw [setHi_eq, be16_toNat, lo_toNat]

@[simp] theorem setLo_toNat (r : Word) (b : Byte) : (setLo r b).toNat = 256 * (r.toNat / 256) + b.toNat := by
  rw [setLo_eq, be16_toNat, hi_toNat]

@[simp] theorem readReg_writeHi_same (s : State) (r : RegRef) (b : Byte) :
    (s.writeHi r b).readReg r = setHi (s.readReg r) b := readReg_writeReg_same s r _

@[simp] theorem readReg_writeLo_same (s : State) (r : RegRef) (b : Byte) :
    (s.writeLo r b).readReg r = setLo (s.readReg r) b := readReg_writeReg_same s r _

/-- Settles O21: a byte write is a register write of the word `be16` of the new byte and the kept one. -/
theorem byteViewsAliasOneRegister : Obligations.ByteViewsAliasOneRegister := by
  intro s r b
  have other : ∀ q, q ≠ r → (s.writeHi r b).readReg q = s.readReg q ∧ (s.writeLo r b).readReg q = s.readReg q :=
    fun q hq => ⟨readReg_writeReg_other s _ hq, readReg_writeReg_other s _ hq⟩
  refine ⟨hi_toNat _, lo_toNat _, by simp, by simp, ?_, ?_, ?_, ?_, ?_, other⟩
  · simp only [State.readHi, readReg_writeLo_same, setLo_eq, hi_be16]
  · simp only [State.readLo, readReg_writeHi_same, setHi_eq, lo_be16]
  · simp only [State.readLo, readReg_writeLo_same, setLo_eq, lo_be16]
  · simp only [State.readHi, readReg_writeHi_same, setHi_eq, hi_be16]
  · rw [State.readHi, State.readLo, ← be16_toNat, be16_hi_lo]

/-! ### Who writes a segment register (R177) -/

/-- A segment register changes only as the destination. -/
theorem Ends.seg_destination {s t : State} {op1 : Option Operand} {n : Nat} {r : SReg} (h : Ends s op1 n t)
    (hr : t.seg.read r ≠ s.seg.read r) : op1 = some (.reg (.seg r)) := by
  cases h with
  | abort m e wf position => exact absurd rfl hr
  | memory m wf => exact absurd rfl hr
  | halt => exact absurd rfl hr
  | register q v slot =>
    cases q with
    | gen q => exact absurd rfl hr
    | seg q =>
      have hq : r = q := by
        by_contra hne
        exact hr (Segs.read_write_other s.seg v hne)
      rw [slot, hq]

/-- Settles O43: the changed segment register is the destination slot, and 0x8E alone has such a slot. -/
theorem onlySegmentMoveWritesSegmentRegisters : Obligations.OnlySegmentMoveWritesSegmentRegisters := by
  intro s t i r h hr
  rcases exec_eq i s with ⟨-, he⟩ | ⟨dst, src, hs, he⟩ <;> rw [he] at h <;> cases h
  · exact absurd rfl hr
  · obtain rfl : dst = .reg (.seg r) := by simpa using (move_ends _ _ _ _ _).seg_destination hr
    exact seg_destination hs

/-! ### Whom the segment registers other than CS reach (R28, R111) -/

/-- The state with other segment registers. -/
def State.withSegs (s : State) (g : Segs) : State := { s with seg := g }

theorem eaLinear_withSegs {s : State} (h : s.params.eaSeg = .unsegmented) (g : Segs) (ea : Nat) :
    (s.withSegs g).eaLinear ea = s.eaLinear ea := by
  simp only [State.eaLinear, State.withSegs, h]

theorem resolve_withSegs {s : State} (h : s.params.eaSeg = .unsegmented) (g : Segs) (rm : RmOp) :
    (s.withSegs g).resolve rm = s.resolve rm := by
  cases rm <;> simp only [State.resolve, eaLinear_withSegs h] <;> rfl

/-- Under the default `P_EA_SEG` no slot of an instruction depends on a segment register (R111). -/
theorem moveSlots_withSegs {s : State} (h : s.params.eaSeg = .unsegmented) (g : Segs) (i : Instr) :
    moveSlots i (s.withSegs g) = moveSlots i s := by
  cases i <;> simp only [moveSlots, resolve_withSegs h, eaLinear_withSegs h]

theorem readOperand_withSegs (s : State) (g : Segs) {src : Operand} (h : ∀ r, src ≠ .reg (.seg r)) :
    (s.withSegs g).readOperand src = s.readOperand src := by
  cases src with
  | reg r =>
    cases r with
    | gen r => rfl
    | seg r => exact absurd rfl (h r)
  | mem a => rfl
  | imm v => rfl

theorem Segs.cs_write_congr {g g' : Segs} (h : g.cs = g'.cs) (r : SReg) (v : Word) :
    (g.write r v).cs = (g'.write r v).cs := by
  cases r with
  | cs => rfl
  | es => exact h
  | ss => exact h
  | ds => exact h

/-- A write of an operand leaves the two runs apart in their segment registers other than CS alone. -/
theorem writeOperand_withSegs {s : State} {g : Segs} (h : g.cs = s.seg.cs) (dst : Operand) (v : Word) :
    ∃ g' : Segs, g'.cs = (s.writeOperand dst v).1.seg.cs ∧
      (s.withSegs g).writeOperand dst v = ((s.writeOperand dst v).1.withSegs g', (s.writeOperand dst v).2) := by
  cases dst with
  | reg r =>
    cases r with
    | gen r => exact ⟨g, h, rfl⟩
    | seg r => exact ⟨g.write r v, Segs.cs_write_congr h r v, rfl⟩
  | imm w => exact ⟨g, h, rfl⟩
  | mem a =>
    obtain ⟨m, o, hs, hg⟩ := setWord_of_mem (s := s) (t := s.withSegs g) rfl v a
    refine ⟨g, ?_, ?_⟩ <;> simp only [State.writeOperand, hs, hg]
    · exact h
    · rfl

/-- A Move whose source is no segment register, with other contents of ES, SS and DS. -/
theorem move_withSegs {s : State} {g : Segs} {src : Operand} (h : g.cs = s.seg.cs) (hsrc : ∀ r, src ≠ .reg (.seg r))
    (opc : Byte) (n : Nat) (op1 : Option Operand) :
    ∃ g' : Segs, g'.cs = (s.move opc n op1 (some src)).seg.cs ∧
      (s.withSegs g).move opc n op1 (some src) = (s.move opc n op1 (some src)).withSegs g' := by
  have hcs : (s.withSegs g).seg.cs = s.seg.cs := h
  have herr : (s.withSegs g).outOfRangeAt = s.outOfRangeAt := by
    funext o a
    simp only [State.outOfRangeAt, hcs]
    rfl
  unfold State.move
  cases hp : movePair op1 (some src) with
  | none => exact ⟨g, h, by rw [hcs]; rfl⟩
  | some p =>
    obtain ⟨dst, src'⟩ := p
    obtain rfl : src = src' := by simpa using (movePair_eq_some hp).2
    simp only [readOperand_withSegs s g hsrc, herr]
    cases s.readOperand src with
    | error a => exact ⟨g, h, rfl⟩
    | ok v =>
      obtain ⟨g', hg', hw⟩ := writeOperand_withSegs h dst v
      simp only [hw]
      rcases hs : s.writeOperand dst v with ⟨t, _ | a⟩ <;> rw [hs] at hg'
      · exact ⟨g', hg', rfl⟩
      · exact ⟨g', hg', rfl⟩

/-- Settles O48: both runs have the same slots, no source is a segment register, and the Moves differ in `seg` alone. -/
theorem dataSegmentsAffectOnlySegmentReads : Obligations.DataSegmentsAffectOnlySegmentReads := by
  intro s t i g hea hcs hi h
  rcases exec_eq i s with ⟨rfl, he⟩ | ⟨dst, src, hs, he⟩ <;> rw [he] at h <;> cases h
  · exact ⟨_, rfl, rfl, rfl, rfl, rfl, rfl, hcs⟩
  · have hsrc : ∀ r, src ≠ .reg (.seg r) := by
      rintro r rfl
      obtain ⟨ign, rfl⟩ := seg_source hs
      exact hi ign r rfl
    obtain ⟨g', hg', hm⟩ := move_withSegs hcs hsrc i.opcode i.size (some dst)
    have he' := exec_of_moveSlots ((moveSlots_withSegs hea g i).trans hs)
    exact ⟨_, he'.trans (congrArg _ hm), rfl, rfl, rfl, rfl, rfl, hg'⟩

end Sys2Proof.Machine
end

section
/-! Memory and its accessors: the canonical form is unique, byte accesses, word accesses, translation. -/

namespace Sys2Proof.Machine

/-! ### The canonical form is unique -/

/-- A listed byte of a canonical list lies at or above its bound. -/
theorem Memory.le_of_listed {low a : Nat} {m : Memory} (w : Memory.wfFrom low m = true)
    (h : m.read a ≠ Config.unlistedByte) : low ≤ a :=
  Nat.le_of_not_lt fun hlt => h (Memory.read_below w hlt)

theorem Memory.read_head (x : Nat) (v : Byte) (m : Memory) : Memory.read ((x, v) :: m) x = v := by
  simp [Memory.read_cons]

/-- Tails of canonical lists with the same first address read equal when the lists do. -/
theorem Memory.read_tail_eq {x : Nat} {v v' : Byte} {m m' : Memory} (w : Memory.wfFrom (x + 1) m = true)
    (w' : Memory.wfFrom (x + 1) m' = true) (h : ∀ a, Memory.read ((x, v) :: m) a = Memory.read ((x, v') :: m') a)
    (a : Nat) : m.read a = m'.read a := by
  by_cases ha : a < x + 1
  · rw [Memory.read_below w ha, Memory.read_below w' ha]
  · have hne : x ≠ a := by omega
    simpa only [Memory.read_cons, if_neg hne] using h a

/-- Canonical lists that read equal are equal: the first listed address is the same, its byte too, and so on. -/
theorem Memory.eq_of_read_eq {low low' : Nat} {m m' : Memory} (w : Memory.wfFrom low m = true)
    (w' : Memory.wfFrom low' m' = true) (h : ∀ a, m.read a = m'.read a) : m = m' := by
  induction m generalizing low low' m' with
  | nil =>
    cases m' with
    | nil => rfl
    | cons c' m' =>
      obtain ⟨x', v'⟩ := c'
      obtain ⟨-, -, hv', -⟩ := (Memory.wfFrom_cons _ _ _ _).1 w'
      exact absurd ((Memory.read_head x' v' m').symm.trans (h x').symm) hv'
  | cons c m ih =>
    obtain ⟨x, v⟩ := c
    obtain ⟨-, hc, hv, wm⟩ := (Memory.wfFrom_cons _ _ _ _).1 w
    cases m' with
    | nil => exact absurd ((Memory.read_head x v m).symm.trans (h x)) hv
    | cons c' m' =>
      obtain ⟨x', v'⟩ := c'
      obtain ⟨-, hc', hv', wm'⟩ := (Memory.wfFrom_cons _ _ _ _).1 w'
      have hle : x' ≤ x := Memory.le_of_listed ((Memory.wfFrom_cons x' x' v' m').2 ⟨Nat.le_refl _, hc', hv', wm'⟩)
        (by rwa [← h, Memory.read_head])
      have hge : x ≤ x' := Memory.le_of_listed ((Memory.wfFrom_cons x x v m).2 ⟨Nat.le_refl _, hc, hv, wm⟩)
        (by rwa [h, Memory.read_head])
      obtain rfl : x = x' := Nat.le_antisymm hge hle
      obtain rfl : v = v' := by simpa only [Memory.read_head] using h x
      rw [ih wm wm' (Memory.read_tail_eq wm wm' h)]

/-- Settles O7, by induction on the two lists. -/
theorem canonicalMemoriesWithEqualBytesAreEqual : Obligations.CanonicalMemoriesWithEqualBytesAreEqual :=
  fun _ _ w w' h => Memory.eq_of_read_eq w w' h

/-! ### Byte accesses (R52, R53) -/

theorem setByte_ok {s : State} (b : Byte) {a : Nat} (h : a < Config.cap) :
    s.setByte b a = ({ s with mem := s.mem.write a b }, none) := by
  simp [State.setByte, h]

theorem setByte_error {s : State} (b : Byte) {a : Nat} (h : Config.cap ≤ a) : s.setByte b a = (s, some a) := by
  simp [State.setByte, Nat.not_lt.2 h]

/-- Settles O22: below the capacity a byte write is `Memory.write` at its address. -/
theorem byteAccessTouchesOneCell : Obligations.ByteAccessTouchesOneCell := by
  intro s a b
  refine ⟨fun h => ⟨getByte_ok h, _, setByte_ok b h, by simp, fun c hc => by simp [hc], rfl⟩, fun h => ?_⟩
  exact ⟨getByte_error h, setByte_error b h⟩

/-! ### Word accesses (R54 to R56) -/

theorem setWord_of_high_cut {s : State} {v : Word} {a e : Nat} (h : (s.setByte (hi v) a).2 = some e) :
    s.setWord v a = s.setByte (hi v) a := by
  unfold State.setWord
  rcases hs : s.setByte (hi v) a with ⟨t, o⟩
  obtain rfl : o = some e := by rwa [hs] at h
  rfl

theorem setWord_of_high_written {s : State} {v : Word} {a : Nat} (h : (s.setByte (hi v) a).2 = none) :
    s.setWord v a = (s.setByte (hi v) a).1.setByte (lo v) (a + 1) := by
  unfold State.setWord
  rcases hs : s.setByte (hi v) a with ⟨t, o⟩
  obtain rfl : o = none := by rwa [hs] at h
  rfl

/-- Settles O23: the two bytes of the word are its views `hi` and `lo`. -/
theorem wordAccessIsTwoByteAccesses : Obligations.WordAccessIsTwoByteAccesses := by
  refine ⟨fun s a h l hh hl => ?_, fun s a e h => ?_, fun s a e b hh hl => ?_, fun s a v => ?_⟩
  · exact ⟨be16 h l, by simp only [State.getWord, hh, hl], be16_toNat h l⟩
  · simp only [State.getWord, h]
  · simp only [State.getWord, hh, hl]
  · exact ⟨hi v, lo v, hi_toNat v, lo_toNat v, fun _ => setWord_of_high_cut, setWord_of_high_written⟩

/-- Settles O24: 0x10FFEF is the last byte of memory, where a word write is cut and a word read fails. -/
theorem wordAccessAtTopOfMemoryIsCut : Obligations.WordAccessAtTopOfMemoryIsCut := by
  intro s v
  have last : 0x10FFEF + 1 = Config.cap := rfl
  refine ⟨⟨_, setWord_last v last, by simp [hi_toNat], fun c hc => by simp [hc], rfl⟩, getWord_error last.ge,
    fun a ha => ⟨setWord_above v ha, ?_⟩⟩
  have hmax : max a Config.cap = a := Nat.max_eq_left ha
  rw [getWord_error (Nat.le_succ_of_le ha), hmax]

/-- Settles O25: both bytes are written, and each of the three words is `be16` of the two bytes it covers. -/
theorem wordReadsBackAfterWordWrite : Obligations.WordReadsBackAfterWordWrite := by
  intro s v a ha
  have hlow : a + 1 < Config.cap := Nat.lt_succ_of_le (Nat.succ_le_succ ha)
  have hhigh : a < Config.cap := Nat.lt_of_succ_lt hlow
  refine ⟨_, setWord_ok v hlow, ?_, ?_, ?_, fun hnext => ?_, fun c hc => ?_⟩
  · rw [getWord_ok hlow]
    simp
  · rw [getByte_ok hhigh]
    simp
  · rw [getByte_ok hlow]
    simp
  · have hne : a + 1 + 1 ≠ a := by omega
    rw [getWord_ok (show a + 1 + 1 < Config.cap from hnext)]
    simp [hne]
  · subst hc
    have hne : c ≠ c + 1 + 1 := by omega
    rw [getWord_ok hhigh]
    simp [hne]

/-! ### Translation (R57, R58) -/

/-- Two 16-bit values translate to at most 0xFFFF0 + 0xFFFF. -/
theorem lin_word_le (seg off : Word) : lin seg off.toNat ≤ 0x10FFEF := by
  have := seg.isLt
  have := off.isLt
  simp only [lin]
  omega

/-- Settles O26: the accessors by segment and offset are defined by the translation, which `lin_word_le` bounds. -/
theorem translationOfWordsStaysInMemory : Obligations.TranslationOfWordsStaysInMemory :=
  ⟨fun _ _ _ => ⟨rfl, rfl, rfl, fun _ => rfl, fun _ => rfl⟩, fun seg off => ⟨lin_word_le seg off, by decide⟩,
    by decide, by decide⟩

end Sys2Proof.Machine
end

section
/-! The instructions and memory: what each end of an instruction's Move leaves, and what a store leaves in memory. -/

namespace Sys2Proof.Machine

/-! ### The ends of an instruction's Move (R142, R148) -/

/-- A source that cannot be read aborts with E4 and changes nothing else. -/
theorem exec_read_error {i : Instr} {s : State} {dst src : Operand} {a : Nat} (h : moveSlots i s = some (dst, src))
    (hr : s.readOperand src = .error a) : exec i s = .next (s.raise (s.outOfRangeAt (some i.opcode) a)) := by
  rw [exec_of_moveSlots h]
  simp only [State.move, movePair_moveSlots h, hr]

/-- A word read and written completes with the advance. -/
theorem exec_write_ok {i : Instr} {s t : State} {dst src : Operand} {v : Word} (h : moveSlots i s = some (dst, src))
    (hr : s.readOperand src = .ok v) (hw : s.writeOperand dst v = (t, none)) : exec i s = .next (t.advance i.size) := by
  rw [exec_of_moveSlots h]
  simp only [State.move, movePair_moveSlots h, hr, hw]

/-- A write that is cut aborts with E4 in the state it leaves (R55). -/
theorem exec_write_cut {i : Instr} {s t : State} {dst src : Operand} {v : Word} {a : Nat}
    (h : moveSlots i s = some (dst, src)) (hr : s.readOperand src = .ok v) (hw : s.writeOperand dst v = (t, some a)) :
    exec i s = .next (t.raise (s.outOfRangeAt (some i.opcode) a)) := by
  rw [exec_of_moveSlots h]
  simp only [State.move, movePair_moveSlots h, hr, hw]

/-! ### Loads and stores -/

/-- A load instruction has a memory word as its source. -/
theorem moveSlots_of_loadAddr {i : Instr} {s : State} {a : Nat} (h : loadAddr i s = some a) :
    ∃ dst, moveSlots i s = some (dst, .mem a) := by
  rcases exec_eq i s with ⟨rfl, -⟩ | ⟨dst, src, hs, -⟩
  · cases h
  · rw [loadAddr_moveSlots hs] at h
    exact ⟨dst, by rw [hs, operandAddress_eq_some h]⟩

/-- A store instruction has a memory word as its destination, and its source can be read. -/
theorem moveSlots_of_storeOf {i : Instr} {s : State} {a : Nat} {v : Word} (h : storeOf i s = some (a, v)) :
    ∃ src, moveSlots i s = some (.mem a, src) ∧ s.readOperand src = .ok v := by
  rcases exec_eq i s with ⟨rfl, -⟩ | ⟨dst, src, hs, -⟩
  · cases h
  · obtain ⟨hmem, hnot⟩ := storeOf_moveSlots hs
    by_cases hd : ∃ b, dst = .mem b
    · obtain ⟨b, rfl⟩ := hd
      obtain ⟨w, hr, hst⟩ := hmem b rfl
      rw [h] at hst
      cases hst
      exact ⟨src, hs, hr⟩
    · rw [hnot fun b hb => hd ⟨b, hb⟩] at h
      cases h

theorem exec_store_ok {i : Instr} {s t : State} {a : Nat} {v : Word} (h : storeOf i s = some (a, v))
    (hw : s.setWord v a = (t, none)) : exec i s = .next (t.advance i.size) := by
  obtain ⟨src, hs, hr⟩ := moveSlots_of_storeOf h
  exact exec_write_ok hs hr hw

theorem exec_store_cut {i : Instr} {s t : State} {a b : Nat} {v : Word} (h : storeOf i s = some (a, v))
    (hw : s.setWord v a = (t, some b)) : exec i s = .next (t.raise (s.outOfRangeAt (some i.opcode) b)) := by
  obtain ⟨src, hs, hr⟩ := moveSlots_of_storeOf h
  exact exec_write_cut hs hr hw

/-- An instruction with a register destination and an immediate source loads the register (R116, R117). -/
theorem exec_loadsGpr_imm {i : Instr} {s : State} {r : GReg} {v : Word}
    (h : moveSlots i s = some (.reg (.gen r), .imm v)) : ∃ t, exec i s = .next t ∧ LoadsGpr s t r v i.size :=
  ⟨_, exec_write_ok h rfl rfl, loadsGpr_writeReg s r v i.size⟩

/-- Bytes that decode to such an instruction of `n` bytes, and what it does. -/
theorem decoded_loadsGpr_imm {bs : List Byte} {i : Instr} {s : State} {r : GReg} {v : Word} {n : Nat}
    (hd : decode bs = .ok (i, [])) (hm : moveSlots i s = some (.reg (.gen r), .imm v)) (hn : i.size = n) :
    ∃ i' t, decode bs = .ok (i', []) ∧ i' = i ∧ exec i' s = .next t ∧ LoadsGpr s t r v n := by
  obtain ⟨t, he, hl⟩ := exec_loadsGpr_imm hm
  exact ⟨i, t, hd, rfl, he, hn ▸ hl⟩

/-- Settles O32: each row decodes to its instruction with the immediate `le16 b0 b1`, which loads the row's register. -/
theorem wordImmediateLoadsRegister : Obligations.WordImmediateLoadsRegister := by
  intro s b0 b1 v hv
  obtain rfl : v = le16 b0 b1 := BitVec.eq_of_toNat_eq (hv.trans (le16_toNat b0 b1).symm)
  exact ⟨decoded_loadsGpr_imm rfl rfl rfl, decoded_loadsGpr_imm rfl rfl rfl, decoded_loadsGpr_imm rfl rfl rfl,
    decoded_loadsGpr_imm rfl rfl rfl, decoded_loadsGpr_imm rfl rfl rfl, decoded_loadsGpr_imm rfl rfl rfl,
    decoded_loadsGpr_imm rfl rfl rfl, decoded_loadsGpr_imm rfl rfl rfl⟩

/-- Settles O40: the three ways a memory word can leave memory are those of `getWord_error`, `setWord_above` and
`setWord_last`. -/
theorem dataAccessOutsideMemoryAborts : Obligations.DataAccessOutsideMemoryAborts := by
  intro s i a
  refine ⟨fun h ha => ?load, fun v h ha => ?above, fun v h ha => ?last⟩
  case load =>
    obtain ⟨dst, hs⟩ := moveSlots_of_loadAddr h
    exact ⟨_, exec_read_error hs (getWord_error ha), abortsUnchanged_raise _ _⟩
  case above => exact ⟨_, exec_store_cut h (setWord_above v ha), abortsUnchanged_raise _ _⟩
  case last =>
    refine ⟨_, exec_store_cut h (setWord_last v ha), ?_, ?_, fun b hb => ?_, rfl, rfl, rfl, rfl, rfl⟩
    · rw [raise_run, ha]
      rfl
    · simp [hi_toNat]
    · simp [hb]

/-! ### What an instruction leaves in memory -/

/-- A word write changes no byte but its two (R53, R54). -/
theorem setWord_read_other (s : State) (v : Word) {a b : Nat} (h : b ≠ a) (h1 : b ≠ a + 1) :
    (s.setWord v a).1.mem.read b = s.mem.read b := by
  rcases setWord_cases s v a with ⟨-, hs⟩ | ⟨-, hs⟩ | ⟨-, hs⟩ <;> simp [hs, h, h1]

/-- An instruction leaves memory as it was, or as the word write of its store leaves it. -/
theorem exec_mem {i : Instr} {s t : State} (h : exec i s = .next t) :
    t.mem = s.mem ∨ ∃ a v, storeOf i s = some (a, v) ∧ t.mem = (s.setWord v a).1.mem := by
  cases hst : storeOf i s with
  | some p =>
    obtain ⟨a, v⟩ := p
    refine .inr ⟨a, v, rfl, ?_⟩
    rcases hw : s.setWord v a with ⟨u, o⟩
    cases o with
    | none =>
      rw [exec_store_ok hst hw] at h
      cases h
      rfl
    | some b =>
      rw [exec_store_cut hst hw] at h
      cases h
      rfl
  | none =>
    refine .inl ?_
    rcases exec_eq i s with ⟨-, he⟩ | ⟨dst, src, hs, -⟩
    · rw [he] at h
      cases h
      rfl
    · cases hr : s.readOperand src with
      | error a =>
        rw [exec_read_error hs hr] at h
        cases h
        rfl
      | ok v =>
        rcases writeOperand_fields s dst v with ⟨r, -, hw⟩ | ⟨a, m, o, rfl, -⟩ | ⟨w, -, hw⟩
        · rw [exec_write_ok hs hr hw] at h
          cases h
          simp
        · obtain ⟨w, -, hsome⟩ := (storeOf_moveSlots hs).1 a rfl
          rw [hst] at hsome
          cases hsome
        · rw [exec_write_ok hs hr hw] at h
          cases h
          rfl

/-- Settles O46: the only change of memory is the word write of the store. -/
theorem onlyTheStoredWordChangesInMemory : Obligations.OnlyTheStoredWordChangesInMemory := by
  intro s t i b h hb
  rcases exec_mem h with hm | ⟨a, v, hst, hm⟩ <;> rw [hm] at hb
  · exact absurd rfl hb
  · refine ⟨a, v, hst, ?_⟩
    by_contra hne
    obtain ⟨h0, h1⟩ := not_or.1 hne
    exact hb (setWord_read_other s v h0 h1)

/-- A fetch of byte `k` from address `a` gives the byte of memory there (R69, R102). -/
theorem fetch_eq_read {s : State} {k a : Nat} (o : Option Byte) (hk : s.fetchAddr k = a) (ha : a < Config.cap) :
    s.fetch o k = .ok (s.mem.read a) := by
  subst hk
  exact fetch_ok o ha

/-- Settles O47: a fetch reads the memory the store left. -/
theorem storedBytesAreFetched : Obligations.StoredBytesAreFetched := by
  intro s i a k v o h ha
  refine ⟨_, exec_store_ok h (setWord_ok v ha), fun hk => ?_, fun hk => ?_⟩
  · rw [fetch_eq_read o hk (Nat.lt_of_succ_lt ha)]
    simp
  · rw [fetch_eq_read o hk ha]
    simp

end Sys2Proof.Machine
end

section
/-! The decoder on an encoding: a ModRM side reads back, and an encoding cut in its immediate ends too early. -/

namespace Sys2Proof

/-! ### A ModRM side read from its encoding -/

/-- The encoding of a side is its ModRM byte and as many bytes as R120 says, and the decoder reads the side back. -/
theorem takeRm_encode {rm : RmOp} (h : rm.wf = true) (reg : BitVec 3) :
    ∃ m disp, rm.encode reg = m :: disp ∧ disp.length = rm.dispLen ∧ regField m = reg ∧
      ∀ rest k, takeRm (modField m) (rmField m) (disp ++ rest) k = k rm rest := by
  cases rm with
  | reg r => exact ⟨_, _, rfl, rfl, by simp, fun rest k => by simp [takeRm]⟩
  | direct a => exact ⟨_, _, rfl, rfl, by simp, fun rest k => by simp [takeRm, encodeWord, takeWord]⟩
  | base b => exact ⟨_, _, rfl, rfl, by simp, fun rest k => by simp [takeRm, EaBase.index_ne_six h]⟩
  | disp8 b d => exact ⟨_, _, rfl, rfl, by simp, fun rest k => by simp [takeRm, takeByte]⟩
  | disp16 b d => exact ⟨_, _, rfl, rfl, by simp, fun rest k => by simp [takeRm, encodeWord, takeWord]⟩

/-! ### Encodings cut short -/

/-- Only the rows with a ModRM side and an immediate have more than four bytes (R120). -/
theorem immediate_of_four_lt {i : Instr} (h : 4 < (encode i).length) :
    (∃ rm imm, i = .movbRmImm8 rm imm) ∨ ∃ rm imm, i = .movRmImm16 rm imm := by
  have hlen : (encode i).length = i.operandBytes.length + 1 := rfl
  rw [hlen] at h
  cases i with
  | movbRmImm8 rm imm => exact .inl ⟨rm, imm, rfl⟩
  | movRmImm16 rm imm => exact .inr ⟨rm, imm, rfl⟩
  | movbRegRm reg rm | movRegRm reg rm | movbRmReg rm reg | movRmReg rm reg =>
    have := rm.dispLen_le
    simp only [Instr.operandBytes, RmOp.length_encode] at h
    omega
  | _ => simp [Instr.operandBytes] at h

theorem takeWord_of_length_lt {bs : List Byte} (h : bs.length < 2) (k : Word → List Byte → DecodeResult) :
    takeWord bs k = .error .truncated := by
  match bs, h with
  | [], _ => rfl
  | [_], _ => rfl

theorem encode_length_le (i : Instr) : (encode i).length ≤ 6 := by
  by_cases h : 4 < (encode i).length
  · obtain ⟨rm, imm, rfl⟩ | ⟨rm, imm, rfl⟩ := immediate_of_four_lt h
    · obtain ⟨hsize, -, hle⟩ := Laws.EncodedSize.movbRmImm8 rm imm
      exact hsize ▸ hle
    · obtain ⟨hsize, -, hle⟩ := Laws.EncodedSize.movRmImm16 rm imm
      exact hsize ▸ hle
  · omega

theorem decode_movbRmImm8_cut {rm : RmOp} (h : rm.wf = true) :
    decode (0xC6#8 :: rm.encode 0) = .error .truncated := by
  obtain ⟨m, disp, he, -, (hreg : regField m = 0#3), hrm⟩ := takeRm_encode h 0
  rw [he, ← List.append_nil disp]
  simp only [decode, decodeAfter, decodeRmImm8, takeByte, hreg, if_true, hrm]

theorem decode_movRmImm16_cut {rm : RmOp} (h : rm.wf = true) {bs : List Byte} (hbs : bs.length < 2) :
    decode (0xC7#8 :: (rm.encode 0 ++ bs)) = .error .truncated := by
  obtain ⟨m, disp, he, -, (hreg : regField m = 0#3), hrm⟩ := takeRm_encode h 0
  rw [he]
  simp only [List.cons_append, decode, decodeAfter, decodeRmImm16, takeByte, hreg, if_true, hrm,
    takeWord_of_length_lt hbs]

/-- An encoding cut at byte 4 or later, which is inside its immediate, ends too early. -/
theorem decode_take_encode {i : Instr} (hi : i.wf = true) {k : Nat} (h4 : 4 ≤ k) (hk : k < (encode i).length) :
    decode ((encode i).take k) = .error .truncated := by
  obtain ⟨n, rfl⟩ : ∃ n, k = n + 1 := ⟨k - 1, by omega⟩
  obtain ⟨rm, imm, rfl⟩ | ⟨rm, imm, rfl⟩ := immediate_of_four_lt (Nat.lt_of_le_of_lt h4 hk)
  all_goals
    have hle := rm.dispLen_le
    have hside : (rm.encode 0).take n = rm.encode 0 := List.take_of_length_le (by rw [RmOp.length_encode]; omega)
    simp only [encode, Instr.operandBytes, List.length_cons, List.length_append, RmOp.length_encode,
      length_encodeWord, List.length_nil] at hk
    simp only [encode, Instr.operandBytes, List.take_succ_cons, List.take_append, hside]
  · have hn : n - (rm.encode 0).length = 0 := by rw [RmOp.length_encode]; omega
    rw [hn, List.take_zero, List.append_nil]
    exact decode_movbRmImm8_cut hi
  · refine decode_movRmImm16_cut hi ?_
    rw [List.length_take, RmOp.length_encode]
    omega

end Sys2Proof
end

section
/-! Fetching outside memory: each part of a fetch that can leave memory aborts with E4 at the first address outside. -/

namespace Sys2Proof.Machine

/-! ### Aborts of a fetch, in the order of R227 -/

theorem step_of_fetch_abort {s : State} {e : AbortError} (hr : s.run = .running) (hf : s.fetchInstr = .abort e) :
    step s = .next (s.raise e) := by
  simp only [step, hr, hf]

theorem fetchInstr_opcode_error {s : State} {e : AbortError} (h : s.fetchOpcode = .error e) :
    s.fetchInstr = .abort e := by
  simp only [State.fetchInstr, h]

theorem fetchInstr_readAhead_error {s : State} {opc : Byte} {d : Desc} {e : AbortError}
    (ho : s.fetchOpcode = .ok (opc, d)) (hd : d.shapeOk = true) (h : s.readAhead opc = .error e) :
    s.fetchInstr = .abort e := by
  simp only [State.fetchInstr, ho, hd, if_true, h]

theorem fetchInstr_decode_error {s : State} {opc : Byte} {d : Desc} {e : DecodeError}
    (ho : s.fetchOpcode = .ok (opc, d)) (hd : defaultRow opc = some d) (ha : s.readAhead opc = .ok ())
    (h : decode s.window = .error e) : s.fetchInstr = .abort (s.decodeAbort opc e) := by
  have hshape : d.shapeOk = true := defaultTable_shapeOk d (defaultRow_byte hd).1
  simp only [State.fetchInstr, ho, hshape, if_true, ha, hd, h]

/-- An opcode byte in memory with a row in the table (R100). -/
theorem fetchOpcode_ok {s : State} {opc : Byte} {d : Desc} (h : s.getByte (s.fetchAddr 0) = .ok opc)
    (hl : s.params.lookup opc = some d) : s.fetchOpcode = .ok (opc, d) := by
  simp only [State.fetchOpcode, State.fetch, h, hl]

/-- Reading ahead fails at the first of its three bytes that lies outside memory (R101; decision D11). -/
theorem readAhead_error {s : State} (opc : Byte) {k : Nat} (h1 : 1 ≤ k) (h3 : k ≤ 3)
    (hin : ∀ j, j < k → s.fetchAddr j < Config.cap) (hout : Config.cap ≤ s.fetchAddr k) :
    s.readAhead opc = .error (.outOfRange (s.fetchAddr k) s.seg.cs s.ip (some opc)) := by
  have hk : k = 1 ∨ k = 2 ∨ k = 3 := by omega
  rcases hk with rfl | rfl | rfl
  · simp only [State.readAhead, fetch_error _ hout]
  · simp only [State.readAhead, fetch_ok _ (hin 1 (by decide)), fetch_error _ hout]
  · simp only [State.readAhead, fetch_ok _ (hin 1 (by decide)), fetch_ok _ (hin 2 (by decide)), fetch_error _ hout]

/-- The opcode byte of an instruction has a row in the default table (R95). -/
theorem defaultRow_opcode (i : Instr) : ∃ d, defaultRow i.opcode = some d := by
  cases i <;> exact ⟨_, rfl⟩

/-- Where memory ends after the first bytes of a list at the fetch addresses, they are the whole window. -/
theorem window_eq_take {s : State} {bs : List Byte} {k : Nat} (hk : k ≤ bs.length) (h6 : k ≤ 6)
    (hin : ∀ (j : Nat) (h : j < bs.length), j < k → s.getByte (s.fetchAddr j) = .ok bs[j])
    (hout : Config.cap ≤ s.fetchAddr k) : s.window = bs.take k := by
  have hlen : (bs.take k).length = k := List.length_take_of_le hk
  have hbytes := bytesFrom_prefix s (bs.take k) 0 6 (by omega) fun j hj => by
    rw [Nat.zero_add, List.getElem_take]
    exact hin j (by omega) (by omega)
  rw [Nat.zero_add, hlen, bytesFrom_error _ hout, List.append_nil] at hbytes
  exact hbytes

/-- Settles O51: the three places of a fetch that can leave memory, in the order the fetch reads them. -/
theorem fetchOutsideMemoryAborts : Obligations.FetchOutsideMemoryAborts := by
  intro s hr
  refine ⟨fun hout => ?opcode, fun opc d k hb hl hd h1 h3 hin hout => ?readAhead,
    fun i k hi hl h4 hin hk hout => ?consumed⟩
  case opcode =>
    have ho : s.fetchOpcode = .error (.outOfRange (s.fetchAddr 0) s.seg.cs s.ip none) := by
      simp only [State.fetchOpcode, fetch_error none hout]
    exact ⟨_, step_of_fetch_abort hr (fetchInstr_opcode_error ho), abortsUnchanged_raise _ _⟩
  case readAhead =>
    have hf := fetchInstr_readAhead_error (fetchOpcode_ok hb hl) hd (readAhead_error opc h1 h3 hin hout)
    exact ⟨_, step_of_fetch_abort hr hf, abortsUnchanged_raise _ _⟩
  case consumed =>
    obtain ⟨d, hd⟩ := defaultRow_opcode i
    have inMemory : ∀ j, j < k → s.fetchAddr j < Config.cap := fun j hj =>
      (getByte_eq_ok.1 (hin j (Nat.lt_trans hj hk) hj)).1
    have hb : s.getByte (s.fetchAddr 0) = .ok i.opcode := hin 0 (by omega) (by omega)
    have ha := readAhead_ok i.opcode (inMemory 1 (by omega)) (inMemory 2 (by omega)) (inMemory 3 (by omega))
    have hle := encode_length_le i
    have hw : s.window = (encode i).take k := window_eq_take hk.le (by omega) hin hout
    have hf := fetchInstr_decode_error (fetchOpcode_ok hb (hl.trans hd)) hd ha (hw ▸ decode_take_encode hi h4 hk)
    have hlen : s.window.length = k := by rw [hw, List.length_take_of_le hk.le]
    rw [State.decodeAbort, hlen] at hf
    exact ⟨_, step_of_fetch_abort hr hf, abortsUnchanged_raise _ _⟩

end Sys2Proof.Machine
end

section
/-! What an abort leaves as it was: an abort of a step changes RUN alone, or cuts a word write at the end of memory. -/

namespace Sys2Proof.Machine

/-! ### What an abort leaves (R148, R228) -/

/-- A slot whose memory operand, if it is one, is the side of some ModRM form, as `resolve_le` needs it. -/
def State.NamesSide (s : State) (slot : Option Operand) : Prop :=
  ∀ a, slot = some (.mem a) → ∃ rm, s.resolve rm = .mem a

/-- The state in which an instruction that aborts with `e` leaves `s`: RUN alone has changed, or a word write to the
last byte of memory has also left its first byte there (R55). -/
inductive Aborts (s : State) (e : AbortError) : State → Prop where
  | unchanged : Aborts s e (s.raise e)
  | cut (a : Nat) (b : Byte) (last : a + 1 = Config.cap) (side : ∃ rm, s.resolve rm = .mem a) :
      Aborts s e (State.raise { s with mem := s.mem.write a b } e)

theorem namesSide_none (s : State) : s.NamesSide none := fun _ h => nomatch h
theorem namesSide_reg (s : State) (r : RegRef) : s.NamesSide (some (.reg r)) := fun _ h => nomatch h
theorem namesSide_imm (s : State) (v : Word) : s.NamesSide (some (.imm v)) := fun _ h => nomatch h

theorem namesSide_resolve (s : State) (rm : RmOp) : s.NamesSide (some (s.resolve rm)) :=
  fun _ h => ⟨rm, Option.some.inj h⟩

theorem namesSide_direct (s : State) (addr : Word) : s.NamesSide (some (.mem (s.eaLinear addr.toNat))) :=
  namesSide_resolve s (.direct addr)

/-- The destination of an instruction is a register or the side of a ModRM form. -/
theorem moveSlots_namesSide {i : Instr} {s : State} {dst src : Operand} (h : moveSlots i s = some (dst, src)) :
    s.NamesSide (some dst) := by
  intro a ha
  cases i <;> cases h <;> first
    | exact namesSide_resolve _ _ a ha
    | exact namesSide_direct _ _ a ha
    | cases ha

/-! ### The table-driven decoder names the sides too -/

theorem fetchSide_resolve {s : State} {opc : Byte} {mod : BitVec 2} {rm : BitVec 3} {n : Nat} {p : Operand × Nat}
    (h : s.fetchSide opc mod rm n = .ok p) : ∃ r, p.1 = s.resolve r := by
  unfold State.fetchSide at h
  split at h
  · cases h
    exact ⟨.reg _, rfl⟩
  split at h
  · split at h <;> cases h
    exact ⟨.direct _, rfl⟩
  split at h
  · split at h <;> cases h
    exact ⟨.disp8 (EaBase.ofIndex rm) _, by rw [zext16_toNat]; rfl⟩
  split at h
  · split at h <;> cases h
    exact ⟨.disp16 (EaBase.ofIndex rm) _, rfl⟩
  · cases h
    exact ⟨.base (EaBase.ofIndex rm), rfl⟩

theorem namesSide_sideSlots {s : State} {p q : Option Operand} (toSide : Bool) (n : Nat) (hp : s.NamesSide p)
    (hq : s.NamesSide q) : s.NamesSide (sideSlots toSide p q n).op1 := by
  cases toSide
  · exact hq
  · exact hp

theorem namesSide_fillSlot {s : State} {x : Slots} (v : Word) (n : Nat) (h : s.NamesSide x.op1) :
    s.NamesSide (fillSlot x v n).op1 := by
  unfold fillSlot
  split
  · exact namesSide_imm s v
  · exact h

theorem namesSide_stepRegister {s : State} {x : Slots} (d : Desc) (opc : Byte) (h : s.NamesSide x.op1) :
    s.NamesSide (stepRegister d opc x).op1 := by
  unfold stepRegister
  split
  · exact namesSide_reg s _
  · exact h

theorem stepModRM_namesSide {s : State} {d : Desc} {opc : Byte} {x y : Slots} (h : s.stepModRM d opc x = .ok y)
    (hx : s.NamesSide x.op1) : s.NamesSide y.op1 := by
  unfold State.stepModRM at h
  split at h
  · split at h
    · cases h
    split at h
    · split at h
      · cases h
      · split at h <;> cases h
        exact namesSide_sideSlots _ _ (namesSide_reg s _) (namesSide_reg s _)
    · split at h
      · cases h
      · split at h <;> cases h
        rename_i side n hside
        obtain ⟨r, rfl⟩ : ∃ r, side = s.resolve r := fetchSide_resolve hside
        refine namesSide_sideSlots _ _ (namesSide_resolve s r) ?_
        split
        · exact namesSide_none s
        · exact namesSide_reg s _
  · cases h
    exact hx

theorem stepImmediate_namesSide {s : State} {d : Desc} {opc : Byte} {x y : Slots} (h : s.stepImmediate d opc x = .ok y)
    (hx : s.NamesSide x.op1) : s.NamesSide y.op1 := by
  unfold State.stepImmediate at h
  split at h
  · split at h
    · split at h <;> cases h
      exact namesSide_fillSlot _ _ hx
    · split at h <;> cases h
      exact namesSide_fillSlot _ _ hx
  · cases h
    exact hx

theorem stepDirect_namesSide {s : State} {d : Desc} {opc : Byte} {x y : Slots} (h : s.stepDirect d opc x = .ok y)
    (hx : s.NamesSide x.op1) : s.NamesSide y.op1 := by
  unfold State.stepDirect at h
  split at h
  · split at h <;> cases h
    exact namesSide_sideSlots _ _ (namesSide_direct s _) (namesSide_reg s _)
  · cases h
    exact hx

theorem decodeRow_namesSide {s : State} {d : Desc} {opc : Byte} {x : Decoded} (h : s.decodeRow d opc = .ok x) :
    s.NamesSide x.op1 := by
  unfold State.decodeRow at h
  split at h
  · cases h
  · split at h
    · cases h
    · split at h <;> cases h
      have hm := stepModRM_namesSide ‹_› (namesSide_none s)
      have hi := stepImmediate_namesSide ‹_› (namesSide_stepRegister d opc hm)
      exact stepDirect_namesSide ‹_› hi

/-! ### Every abort of a step -/

theorem move_aborts {s : State} {opc : Byte} {n : Nat} {op1 op2 : Option Operand} {e : AbortError}
    (hr : s.run = .running) (hside : s.NamesSide op1) (h : (s.move opc n op1 op2).run = .aborted e) :
    Aborts s e (s.move opc n op1 op2) := by
  rcases move_cases opc n op1 op2 s with ⟨-, hm⟩ | ⟨dst, src, hp, ⟨a, -, hm⟩ | ⟨v, -, ⟨t, ht, hm⟩ | ⟨t, a, ht, hm⟩⟩⟩
  all_goals rw [hm] at h ⊢
  · cases h
    exact .unchanged
  · cases h
    exact .unchanged
  · have hrun : t.run = s.run := by
      rcases writeOperand_fields s dst v with ⟨r, -, hw⟩ | ⟨a, m, o, -, hw⟩ | ⟨w, -, hw⟩ <;> cases hw.symm.trans ht
      · exact writeReg_run s r v
      · rfl
      · rfl
    rw [advance_run, hrun, hr] at h
    cases h
  · cases h
    cases dst with
    | reg r => cases ht
    | imm w => cases ht
    | mem b =>
      rw [State.writeOperand] at ht
      rcases setWord_cases s v b with ⟨-, hw⟩ | ⟨hlast, hw⟩ | ⟨-, hw⟩ <;> cases hw.symm.trans ht
      · exact .cut b (hi v) hlast (hside b (movePair_eq_some hp).1)
      · exact .unchanged

theorem runRow_aborts {s : State} {opc : Byte} {d : Desc} {e : AbortError} (hr : s.run = .running)
    (h : (s.runRow opc d).run = .aborted e) : Aborts s e (s.runRow opc d) := by
  unfold State.runRow at h ⊢
  cases hd : s.decodeRow d opc with
  | error e' =>
    simp only [hd] at h ⊢
    cases h
    exact .unchanged
  | ok x =>
    simp only [hd, State.dispatch] at h ⊢
    cases hk : x.kind with
    | move =>
      simp only [hk] at h ⊢
      exact move_aborts hr (decodeRow_namesSide hd) h
    | halt =>
      simp only [hk] at h
      cases h

theorem exec_aborts {i : Instr} {s t : State} {e : AbortError} (hr : s.run = .running) (h : exec i s = .next t)
    (ha : t.run = .aborted e) : Aborts s e t := by
  rcases exec_eq i s with ⟨-, he⟩ | ⟨dst, src, hs, he⟩ <;> rw [he] at h <;> cases h
  · cases ha
  · exact move_aborts hr (moveSlots_namesSide hs) ha

theorem step_aborts {s t : State} {e : AbortError} (hr : s.run = .running) (h : step s = .next t)
    (ha : t.run = .aborted e) : Aborts s e t := by
  rcases step_cases s with ⟨hn, -⟩ | ⟨-, ⟨i, -, hs⟩ | ⟨opc, d, -, hs⟩ | ⟨e', -, hs⟩ | ⟨r, -, hs⟩⟩
  · exact absurd hr hn
  all_goals rw [hs] at h
  · exact exec_aborts hr h ha
  · cases h
    exact runRow_aborts hr ha
  · cases h
    cases ha
    exact .unchanged
  · cases h

/-- Settles O52: a cut word write is at 0x10FFEF, which under the default `P_EA_SEG` no ModRM side reaches. -/
theorem abortChangesNothingElse : Obligations.AbortChangesNothingElse := by
  intro s t e hr h ha
  cases step_aborts hr h ha with
  | unchanged => exact ⟨rfl, rfl, rfl, rfl, rfl, fun b _ => rfl, fun _ b => rfl⟩
  | cut a v last side =>
    obtain rfl : a = 0x10FFEF := Nat.succ.inj last
    refine ⟨rfl, rfl, rfl, rfl, rfl, fun b hb => by simp [hb], fun hea => ?_⟩
    obtain ⟨rm, hrm⟩ := side
    exact absurd (resolve_le hea rm _ hrm) (by decide)

end Sys2Proof.Machine
end

section
/-! The round trips of the decoder and the encoder (R80, R89 to R94): one law per format in each direction. -/

namespace Sys2Proof

/-! ### Decoding an encoding, format by format -/

theorem decodeModRM_encode {mk : GReg → RmOp → Instr} {rm : RmOp} (h : rm.wf = true) (reg : GReg) (rest : List Byte) :
    decodeModRM mk (rm.encode reg.index ++ rest) = .ok (mk reg rm, rest) := by
  obtain ⟨m, disp, he, -, hreg, hrm⟩ := takeRm_encode h reg.index
  rw [he, List.cons_append]
  simp only [decodeModRM, takeByte, hrm, hreg, GReg.ofIndex_index]

theorem decodeSegModRM_encode {opc : Byte} {mk : BitVec 3 → SReg → Instr} (ign : BitVec 3) (r : SReg)
    (rest : List Byte) : decodeSegModRM opc mk (modRmByte 3 ign r.index :: rest) = .ok (mk ign r, rest) := by
  have hmod : modField (modRmByte 3 ign r.index) = 3#2 := modField_modRmByte 3 ign r.index
  simp only [decodeSegModRM, takeByte, hmod, if_true, rmField_modRmByte, SReg.ofIndex?_index, regField_modRmByte]

theorem takeWord_encodeWord (w : Word) (rest : List Byte) (k : Word → List Byte → DecodeResult) :
    takeWord (encodeWord w ++ rest) k = k w rest := by
  simp only [encodeWord, List.cons_append, List.nil_append, takeWord, le16_fields]

theorem decodeDirect_encode {mk : Word → Instr} (w : Word) (rest : List Byte) :
    decodeDirect mk (encodeWord w ++ rest) = .ok (mk w, rest) :=
  takeWord_encodeWord w rest _

theorem decodeImm16_encode {mk : Word → Instr} (w : Word) (rest : List Byte) :
    decodeImm16 mk (encodeWord w ++ rest) = .ok (mk w, rest) :=
  takeWord_encodeWord w rest _

theorem decodeRmImm8_encode {opc : Byte} {mk : RmOp → Byte → Instr} {rm : RmOp} (h : rm.wf = true) (v : Byte)
    (rest : List Byte) : decodeRmImm8 opc mk (rm.encode 0 ++ [v] ++ rest) = .ok (mk rm v, rest) := by
  obtain ⟨m, disp, he, -, (hreg : regField m = 0#3), hrm⟩ := takeRm_encode h 0
  rw [he, List.append_assoc, List.cons_append]
  simp only [decodeRmImm8, takeByte, hreg, if_true, hrm, List.cons_append, List.nil_append]

theorem decodeRmImm16_encode {opc : Byte} {mk : RmOp → Word → Instr} {rm : RmOp} (h : rm.wf = true) (v : Word)
    (rest : List Byte) : decodeRmImm16 opc mk (rm.encode 0 ++ encodeWord v ++ rest) = .ok (mk rm v, rest) := by
  obtain ⟨m, disp, he, -, (hreg : regField m = 0#3), hrm⟩ := takeRm_encode h 0
  rw [he, List.append_assoc, List.cons_append]
  simp only [decodeRmImm16, takeByte, hreg, if_true, hrm, takeWord_encodeWord]

/-- Settles O8: the opcode byte selects the row's format, whose decoder reads its fields back. -/
theorem decodeOfEncodeIsInstruction : Obligations.DecodeOfEncodeIsInstruction := by
  intro i rest h
  cases i with
  | movbRegRm reg rm | movRegRm reg rm => exact decodeModRM_encode h reg rest
  | movbRmReg rm reg => exact decodeModRM_encode (mk := fun reg rm => .movbRmReg rm reg) h reg rest
  | movRmReg rm reg => exact decodeModRM_encode (mk := fun reg rm => .movRmReg rm reg) h reg rest
  | movGprSeg ign r | movSegGpr ign r => exact decodeSegModRM_encode ign r rest
  | movbAxMem w | movAxMem w | movbMemAx w | movMemAx w => exact decodeDirect_encode w rest
  | movAxImm16 w | movCxImm16 w | movDxImm16 w | movBxImm16 w | movSpImm16 w | movBpImm16 w | movSiImm16 w
  | movDiImm16 w => exact decodeImm16_encode w rest
  | movbRmImm8 rm imm => exact decodeRmImm8_encode h imm rest
  | movRmImm16 rm imm => exact decodeRmImm16_encode h imm rest
  | _ => rfl

/-! ### What a format decodes, encoded again -/

theorem encodeWord_le16 (b0 b1 : Byte) : encodeWord (le16 b0 b1) = [b0, b1] := by
  simp only [encodeWord, fieldLo_le16, fieldHi_le16]

theorem takeByte_eq_ok {bs : List Byte} {k : Byte → List Byte → DecodeResult} {p : Instr × List Byte}
    (h : takeByte bs k = .ok p) : ∃ b rest, bs = b :: rest ∧ k b rest = .ok p := by
  cases bs with
  | nil => cases h
  | cons b rest => exact ⟨b, rest, rfl, h⟩

theorem takeWord_eq_ok {bs : List Byte} {k : Word → List Byte → DecodeResult} {p : Instr × List Byte}
    (h : takeWord bs k = .ok p) : ∃ w rest, bs = encodeWord w ++ rest ∧ k w rest = .ok p := by
  match bs, h with
  | lo :: hi :: rest, h => exact ⟨le16 lo hi, rest, by rw [encodeWord_le16]; rfl, h⟩

/-- Mod 0 and an rm other than 6 name a base that has an encoding (R106). -/
theorem wf_base_ofIndex {rm : BitVec 3} (h : rm ≠ 6#3) : RmOp.wf (.base (EaBase.ofIndex rm)) = true := by
  revert rm; decide

/-- The ModRM byte and the bytes a side takes are the side's encoding, and the side is well formed. -/
theorem takeRm_eq_ok {m : Byte} {bs : List Byte} {k : RmOp → List Byte → DecodeResult} {p : Instr × List Byte}
    (h : takeRm (modField m) (rmField m) bs k = .ok p) :
    ∃ rm rest, rm.wf = true ∧ m :: bs = rm.encode (regField m) ++ rest ∧ k rm rest = .ok p := by
  have hm := modRmByte_fields m
  unfold takeRm at h
  split at h <;> rename_i hmod <;> rw [hmod] at hm
  · split at h
    · rename_i hrm
      obtain ⟨a, rest, rfl, hk⟩ := takeWord_eq_ok h
      rw [hrm] at hm
      exact ⟨.direct a, rest, rfl, congrArg (· :: _) hm.symm, hk⟩
    · rename_i hrm
      rw [← EaBase.index_ofIndex (rmField m)] at hm
      exact ⟨.base _, bs, wf_base_ofIndex hrm, congrArg (· :: _) hm.symm, h⟩
  · obtain ⟨d, rest, rfl, hk⟩ := takeByte_eq_ok h
    rw [← EaBase.index_ofIndex (rmField m)] at hm
    exact ⟨.disp8 _ d, rest, rfl, congrArg (· :: _) hm.symm, hk⟩
  · obtain ⟨d, rest, rfl, hk⟩ := takeWord_eq_ok h
    rw [← EaBase.index_ofIndex (rmField m)] at hm
    exact ⟨.disp16 _ d, rest, rfl, congrArg (· :: _) hm.symm, hk⟩
  · rw [← GReg.index_ofIndex (rmField m)] at hm
    exact ⟨.reg _, bs, rfl, congrArg (· :: _) hm.symm, h⟩

theorem decodeModRM_eq_ok {mk : GReg → RmOp → Instr} {bs rest : List Byte} {i : Instr}
    (h : decodeModRM mk bs = .ok (i, rest)) :
    ∃ reg rm, i = mk reg rm ∧ rm.wf = true ∧ bs = rm.encode reg.index ++ rest := by
  obtain ⟨m, bs, rfl, hk⟩ := takeByte_eq_ok h
  obtain ⟨rm, rest, hwf, hbs, hk⟩ := takeRm_eq_ok hk
  cases hk
  exact ⟨GReg.ofIndex (regField m), rm, rfl, hwf, by rw [hbs, GReg.index_ofIndex]⟩

theorem decodeSegModRM_eq_ok {opc : Byte} {mk : BitVec 3 → SReg → Instr} {bs rest : List Byte} {i : Instr}
    (h : decodeSegModRM opc mk bs = .ok (i, rest)) :
    ∃ ign r, i = mk ign r ∧ bs = modRmByte 3 ign r.index :: rest := by
  obtain ⟨m, bs, rfl, hk⟩ := takeByte_eq_ok h
  have hm := modRmByte_fields m
  split at hk
  · rename_i hmod
    split at hk <;> cases hk
    rename_i r hr
    rw [hmod, ← SReg.index_of_ofIndex? hr] at hm
    exact ⟨regField m, r, rfl, congrArg (· :: _) hm.symm⟩
  · cases hk

theorem decodeDirect_eq_ok {mk : Word → Instr} {bs rest : List Byte} {i : Instr}
    (h : decodeDirect mk bs = .ok (i, rest)) : ∃ a, i = mk a ∧ bs = encodeWord a ++ rest := by
  obtain ⟨a, rest, rfl, hk⟩ := takeWord_eq_ok h
  cases hk
  exact ⟨a, rfl, rfl⟩

theorem decodeImm16_eq_ok {mk : Word → Instr} {bs rest : List Byte} {i : Instr}
    (h : decodeImm16 mk bs = .ok (i, rest)) : ∃ v, i = mk v ∧ bs = encodeWord v ++ rest :=
  decodeDirect_eq_ok h

theorem decodeImm8_eq_ok {mk : Byte → Instr} {bs rest : List Byte} {i : Instr}
    (h : decodeImm8 mk bs = .ok (i, rest)) : ∃ v, i = mk v ∧ bs = v :: rest := by
  obtain ⟨v, rest, rfl, hk⟩ := takeByte_eq_ok h
  cases hk
  exact ⟨v, rfl, rfl⟩

theorem decodeRmImm8_eq_ok {opc : Byte} {mk : RmOp → Byte → Instr} {bs rest : List Byte} {i : Instr}
    (h : decodeRmImm8 opc mk bs = .ok (i, rest)) :
    ∃ rm v, i = mk rm v ∧ rm.wf = true ∧ bs = rm.encode 0 ++ [v] ++ rest := by
  obtain ⟨m, bs, rfl, hk⟩ := takeByte_eq_ok h
  split at hk
  · rename_i hreg
    obtain ⟨rm, bs, hwf, hbs, hside⟩ := takeRm_eq_ok hk
    obtain ⟨v, rest, rfl, hv⟩ := takeByte_eq_ok hside
    cases hv
    exact ⟨rm, v, rfl, hwf, by rw [hbs, hreg, List.append_assoc]; rfl⟩
  · cases hk

theorem decodeRmImm16_eq_ok {opc : Byte} {mk : RmOp → Word → Instr} {bs rest : List Byte} {i : Instr}
    (h : decodeRmImm16 opc mk bs = .ok (i, rest)) :
    ∃ rm v, i = mk rm v ∧ rm.wf = true ∧ bs = rm.encode 0 ++ encodeWord v ++ rest := by
  obtain ⟨m, bs, rfl, hk⟩ := takeByte_eq_ok h
  split at hk
  · rename_i hreg
    obtain ⟨rm, bs, hwf, hbs, hside⟩ := takeRm_eq_ok hk
    obtain ⟨v, rest, rfl, hv⟩ := takeWord_eq_ok hside
    cases hv
    exact ⟨rm, v, rfl, hwf, by rw [hbs, hreg, List.append_assoc]; rfl⟩
  · cases hk

end Sys2Proof
end

section
/-! The formats of the default table (R89 to R95), said once: how each row's bytes are decoded, encoded and run. The
round trip from bytes, the refusals of the decoder and the agreement with the table-driven algorithm are read off it. -/

namespace Sys2Proof.Machine

/-- The decoder's output from filled slots (R119). -/
def Slots.decoded (k : Kind) (x : Slots) : Decoded := ⟨k, x.op1, x.op2, x.n⟩

/-- Instruction `i` is the opcode byte `opc` with these operand bytes, has an encoding exactly when `wf` holds, and runs
as the dispatch on `x` (R143). -/
structure Implements (i : Instr) (opc : Byte) (operands : List Byte) (wf : Bool) (x : State → Decoded) : Prop where
  encode : encode i = opc :: operands
  wf     : i.wf = wf
  exec   : ∀ s, exec i s = .next (s.dispatch opc (x s))

/-- The format of a row with opcode byte `opc`: the row's descriptor, the decoder of the bytes after the opcode byte, and
what the instructions it builds are (R89 to R94). -/
inductive RowFormat (opc : Byte) : Desc → (List Byte → DecodeResult) → Prop where
  | modRM (mk : GReg → RmOp → Instr)
      (law : ∀ reg rm, Implements (mk reg rm) opc (rm.encode reg.index) rm.wf fun s =>
        (sideSlots (opc.getLsbD 1) (some (s.resolve rm)) (some (.reg (.gen reg))) (2 + rm.dispLen)).decoded .move) :
      RowFormat opc (rowModRM opc) (decodeModRM mk)
  | segModRM (mk : BitVec 3 → SReg → Instr)
      (law : ∀ ign r, Implements (mk ign r) opc [modRmByte 3 ign r.index] true fun _ =>
        (sideSlots (opc.getLsbD 1) (some (.reg (.seg r))) (some (.reg (.gen r.paired))) 2).decoded .move) :
      RowFormat opc (rowSegModRM opc) (decodeSegModRM opc mk)
  | direct (mk : Word → Instr)
      (law : ∀ a, Implements (mk a) opc (encodeWord a) true fun s =>
        (sideSlots (opc.getLsbD 1) (some (.mem (s.eaLinear a.toNat))) (some (.reg (.gen .ax))) 3).decoded .move) :
      RowFormat opc (rowDirect opc) (decodeDirect mk)
  | regImm8 (n : Nat) (mk : Byte → Instr) (width : opc.getLsbD 3 = false)
      (law : ∀ v, Implements (mk v) opc [v] true fun _ =>
        ⟨.move, some (.reg (.gen (opcodeReg opc))), some (.imm (zext16 v)), 2⟩) :
      RowFormat opc (rowRegImm opc n) (decodeImm8 mk)
  | regImm16 (n : Nat) (mk : Word → Instr) (width : opc.getLsbD 3 = true)
      (law : ∀ v, Implements (mk v) opc (encodeWord v) true fun _ =>
        ⟨.move, some (.reg (.gen (opcodeReg opc))), some (.imm v), 3⟩) :
      RowFormat opc (rowRegImm opc n) (decodeImm16 mk)
  | rmImm8 (n : Nat) (mk : RmOp → Byte → Instr) (width : opc.getLsbD 0 = false) (direction : opc.getLsbD 1 = true)
      (law : ∀ rm v, Implements (mk rm v) opc (rm.encode 0 ++ [v]) rm.wf fun s =>
        ⟨.move, some (s.resolve rm), some (.imm (zext16 v)), 3 + rm.dispLen⟩) :
      RowFormat opc (rowModRMImm opc n) (decodeRmImm8 opc mk)
  | rmImm16 (n : Nat) (mk : RmOp → Word → Instr) (width : opc.getLsbD 0 = true) (direction : opc.getLsbD 1 = true)
      (law : ∀ rm v, Implements (mk rm v) opc (rm.encode 0 ++ encodeWord v) rm.wf fun s =>
        ⟨.move, some (s.resolve rm), some (.imm v), 4 + rm.dispLen⟩) :
      RowFormat opc (rowModRMImm opc n) (decodeRmImm16 opc mk)
  | halt (i : Instr) (law : Implements i opc [] true fun _ => ⟨.halt, none, none, 1⟩) :
      RowFormat opc (rowNone opc) fun bs => .ok (i, bs)

/-- Every row of the default table, in its order, has one of the formats (R95). -/
theorem rowFormat_of_mem : ∀ d ∈ defaultTable, RowFormat d.byte d (decodeAfter d.byte) := by
  simp only [defaultTable, List.cons_append, List.nil_append, List.forall_mem_cons]
  refine ⟨.modRM _ ?_, .modRM _ ?_,
    .modRM (fun reg rm => .movbRmReg rm reg) ?_, .modRM (fun reg rm => .movRmReg rm reg) ?_,
    .segModRM _ ?_, .segModRM _ ?_, .direct _ ?_, .direct _ ?_, .direct _ ?_, .direct _ ?_,
    .regImm8 _ _ rfl ?_, .regImm8 _ _ rfl ?_, .regImm8 _ _ rfl ?_, .regImm8 _ _ rfl ?_,
    .regImm8 _ _ rfl ?_, .regImm8 _ _ rfl ?_, .regImm8 _ _ rfl ?_, .regImm8 _ _ rfl ?_,
    .regImm16 _ _ rfl ?_, .regImm16 _ _ rfl ?_, .regImm16 _ _ rfl ?_, .regImm16 _ _ rfl ?_,
    .regImm16 _ _ rfl ?_, .regImm16 _ _ rfl ?_, .regImm16 _ _ rfl ?_, .regImm16 _ _ rfl ?_,
    .rmImm8 _ _ rfl rfl ?_, .rmImm16 _ _ rfl rfl ?_, .halt _ ?_, fun _ h => nomatch h⟩ <;>
  intros <;> exact ⟨rfl, rfl, fun _ => rfl⟩

theorem rowFormat_of_defaultRow {opc : Byte} {d : Desc} (h : defaultRow opc = some d) :
    RowFormat opc d (decodeAfter opc) := by
  obtain ⟨hd, rfl⟩ := defaultRow_byte h
  exact rowFormat_of_mem d hd

/-- A byte without a row in the default table is no instruction (R123). -/
theorem decodeAfter_of_no_row {opc : Byte} (h : defaultRow opc = none) (bs : List Byte) :
    decodeAfter opc bs = .error (.unrecognized opc) := by
  unfold decodeAfter
  split
  case h_30 => rfl
  all_goals cases h

/-! ### Whatever decodes is an encoding (R119, R120) -/

theorem RowFormat.eq_encode {opc : Byte} {d : Desc} {f : List Byte → DecodeResult} (hf : RowFormat opc d f)
    {bs rest : List Byte} {i : Instr} (h : f bs = .ok (i, rest)) : i.wf = true ∧ opc :: bs = encode i ++ rest := by
  cases hf with
  | modRM mk law =>
    obtain ⟨reg, rm, rfl, hwf, rfl⟩ := decodeModRM_eq_ok h
    exact ⟨(law reg rm).wf.trans hwf, by rw [(law reg rm).encode]; rfl⟩
  | segModRM mk law =>
    obtain ⟨ign, r, rfl, rfl⟩ := decodeSegModRM_eq_ok h
    exact ⟨(law ign r).wf, by rw [(law ign r).encode]; rfl⟩
  | direct mk law =>
    obtain ⟨a, rfl, rfl⟩ := decodeDirect_eq_ok h
    exact ⟨(law a).wf, by rw [(law a).encode]; rfl⟩
  | regImm8 n mk width law =>
    obtain ⟨v, rfl, rfl⟩ := decodeImm8_eq_ok h
    exact ⟨(law v).wf, by rw [(law v).encode]; rfl⟩
  | regImm16 n mk width law =>
    obtain ⟨v, rfl, rfl⟩ := decodeImm16_eq_ok h
    exact ⟨(law v).wf, by rw [(law v).encode]; rfl⟩
  | rmImm8 n mk width direction law =>
    obtain ⟨rm, v, rfl, hwf, rfl⟩ := decodeRmImm8_eq_ok h
    exact ⟨(law rm v).wf.trans hwf, by rw [(law rm v).encode]; rfl⟩
  | rmImm16 n mk width direction law =>
    obtain ⟨rm, v, rfl, hwf, rfl⟩ := decodeRmImm16_eq_ok h
    exact ⟨(law rm v).wf.trans hwf, by rw [(law rm v).encode]; rfl⟩
  | halt i law =>
    cases h
    exact ⟨law.wf, by rw [law.encode]; rfl⟩

theorem encode_length (i : Instr) : (encode i).length = i.size := by
  cases i with
  | movbRegRm reg rm => exact (Laws.EncodedSize.movbRegRm reg rm).1
  | movRegRm reg rm => exact (Laws.EncodedSize.movRegRm reg rm).1
  | movbRmReg rm reg => exact (Laws.EncodedSize.movbRmReg rm reg).1
  | movRmReg rm reg => exact (Laws.EncodedSize.movRmReg rm reg).1
  | movbRmImm8 rm imm => exact (Laws.EncodedSize.movbRmImm8 rm imm).1
  | movRmImm16 rm imm => exact (Laws.EncodedSize.movRmImm16 rm imm).1
  | _ => rfl

/-- Settles O9: the opcode byte has a row, whose format encodes back what it decodes. -/
theorem encodeOfDecodeIsBytes : Obligations.EncodeOfDecodeIsBytes := by
  intro bs i rest h
  cases bs with
  | nil => cases h
  | cons opc bs =>
    cases hd : defaultRow opc with
    | none => exact absurd ((decodeAfter_of_no_row hd bs).symm.trans h) (by simp)
    | some d =>
      obtain ⟨hwf, hbs⟩ := (rowFormat_of_defaultRow hd).eq_encode h
      exact ⟨hwf, hbs, by rw [hbs, List.length_append, encode_length]⟩

end Sys2Proof.Machine
end

section
/-! The step is the table-driven step (R130): over the window of bytes at CS:IP, the decoder of each format of the default
table agrees with the algorithm R99 on the row alone, errors included. -/

namespace Sys2Proof.Machine

/-! ### The window, byte by byte -/

theorem getByte_bytesFrom {s : State} {k n j : Nat} (h : j < (s.bytesFrom k n).length) :
    s.getByte (s.fetchAddr (k + j)) = .ok (s.bytesFrom k n)[j] := by
  induction n generalizing k j with
  | zero => cases h
  | succ n ih =>
    by_cases hk : s.fetchAddr k < Config.cap
    · simp only [bytesFrom_ok n hk] at h ⊢
      cases j with
      | zero => exact getByte_ok hk
      | succ j => simpa only [Nat.add_assoc, Nat.add_comm 1, List.getElem_cons_succ] using ih (Nat.lt_of_succ_lt_succ h)
    · rw [bytesFrom_error _ (Nat.not_lt.1 hk)] at h
      cases h

/-- Bytes fewer than asked for end where memory ends (R51). -/
theorem cap_le_of_bytesFrom_short {s : State} {k n : Nat} (h : (s.bytesFrom k n).length < n) :
    Config.cap ≤ s.fetchAddr (k + (s.bytesFrom k n).length) := by
  induction n generalizing k with
  | zero => cases h
  | succ n ih =>
    by_cases hk : s.fetchAddr k < Config.cap
    · rw [bytesFrom_ok n hk, List.length_cons] at h ⊢
      simpa only [Nat.add_assoc, Nat.add_comm 1] using ih (Nat.lt_of_succ_lt_succ h)
    · rw [bytesFrom_error _ (Nat.not_lt.1 hk)]
      exact Nat.not_lt.1 hk

theorem getByte_window {s : State} {k : Nat} (h : k < s.window.length) :
    s.getByte (s.fetchAddr k) = .ok s.window[k] := by
  have hb := getByte_bytesFrom (s := s) (k := 0) (n := 6) h
  rwa [Nat.zero_add] at hb

theorem cap_le_of_window_short {s : State} (h : s.window.length < 6) : Config.cap ≤ s.fetchAddr s.window.length := by
  have hout := cap_le_of_bytesFrom_short (s := s) (k := 0) (n := 6) h
  rwa [Nat.zero_add] at hout

theorem fetch_window {s : State} {k : Nat} (o : Option Byte) (h : k < s.window.length) :
    s.fetch o k = .ok s.window[k] := by
  simp only [State.fetch, getByte_window h]

theorem fetchField_window {s : State} {k : Nat} (opc : Byte) (h : k + 1 < s.window.length) :
    s.fetchField opc k = .ok (le16 s.window[k] s.window[k + 1]) := by
  simp only [State.fetchField, fetch_window (some opc) (Nat.lt_of_succ_lt h), fetch_window (some opc) h]

/-- Fetching just after a short window fails as the decoder on bytes does when they end too early (R51, R224). -/
theorem fetch_window_length {s : State} (opc : Byte) (h : s.window.length < 6) :
    s.fetch (some opc) s.window.length = .error (s.decodeAbort opc .truncated) := by
  rw [fetch_error _ (cap_le_of_window_short h)]
  rfl

theorem takeByte_drop {bs : List Byte} {k : Nat} (h : k < bs.length) (f : Byte → List Byte → DecodeResult) :
    takeByte (bs.drop k) f = f bs[k] (bs.drop (k + 1)) := by
  rw [List.drop_eq_getElem_cons h]
  rfl

theorem takeWord_drop {bs : List Byte} {k : Nat} (h : k + 1 < bs.length) (f : Word → List Byte → DecodeResult) :
    takeWord (bs.drop k) f = f (le16 bs[k] bs[k + 1]) (bs.drop (k + 2)) := by
  rw [List.drop_eq_getElem_cons (Nat.lt_of_succ_lt h), List.drop_eq_getElem_cons h]
  rfl

/-- A byte consumed at offset `k` by both decoders: the same byte, or both run out of memory there (R51, R102). -/
theorem takeByte_window {s : State} (opc : Byte) {k : Nat} (hk : k ≤ s.window.length) (h6 : k < 6) :
    (∃ b, s.fetch (some opc) k = .ok b ∧ ∀ f, takeByte (s.window.drop k) f = f b (s.window.drop (k + 1))) ∨
    (s.fetch (some opc) k = .error (s.decodeAbort opc .truncated) ∧
      ∀ f, takeByte (s.window.drop k) f = .error .truncated) := by
  rcases Nat.lt_or_eq_of_le hk with hlt | rfl
  · exact .inl ⟨_, fetch_window _ hlt, takeByte_drop hlt⟩
  · refine .inr ⟨fetch_window_length opc h6, fun f => ?_⟩
    rw [List.drop_length]
    rfl

/-- A little-endian field consumed at offset `k` by both decoders (R59). -/
theorem takeWord_window {s : State} (opc : Byte) {k : Nat} (hk : k ≤ s.window.length) (h5 : k < 5) :
    (∃ w, s.fetchField opc k = .ok w ∧ ∀ f, takeWord (s.window.drop k) f = f w (s.window.drop (k + 2))) ∨
    (s.fetchField opc k = .error (s.decodeAbort opc .truncated) ∧
      ∀ f, takeWord (s.window.drop k) f = .error .truncated) := by
  by_cases h2 : k + 1 < s.window.length
  · exact .inl ⟨_, fetchField_window opc h2, takeWord_drop h2⟩
  · refine .inr ⟨?_, takeWord_of_length_lt (by rw [List.length_drop]; omega)⟩
    have hout := fetch_window_length opc (s := s) (by omega)
    rcases Nat.lt_or_eq_of_le hk with hlt | rfl
    · obtain hlast : k + 1 = s.window.length := by omega
      simp only [State.fetchField, fetch_window (some opc) hlt, hlast, hout]
    · simp only [State.fetchField, hout]

/-- With the opcode byte and the read-ahead bytes in range, the window holds at least those four (R101). -/
theorem four_le_window {s : State} (hin : ∀ k, k ≤ 3 → s.fetchAddr k < Config.cap) : 4 ≤ s.window.length := by
  obtain ⟨b0, b1, b2, b3, hw, -⟩ := window_ok s hin
  simp [hw]

/-- The ModRM side after the ModRM byte, read by both decoders. -/
theorem takeRm_window {s : State} (hin : ∀ k, k ≤ 3 → s.fetchAddr k < Config.cap) (opc : Byte) (mod : BitVec 2)
    (rm : BitVec 3) :
    ∃ r : RmOp, (∀ f, takeRm mod rm (s.window.drop 2) f = f r (s.window.drop (2 + r.dispLen))) ∧
      s.fetchSide opc mod rm 2 = .ok (s.resolve r, 2 + r.dispLen) := by
  obtain ⟨b0, b1, b2, b3, hw, hfetch⟩ := window_ok s hin
  obtain ⟨-, -, h2, h3⟩ := hfetch (some opc)
  obtain ⟨r, hside, hf⟩ := fetchSide_eq s opc mod rm b2 b3 (s.bytesFrom 4 2) h2 h3
  refine ⟨r, fun f => ?_, hf⟩
  rw [← List.drop_drop, hw]
  exact hside f

/-! ### The algorithm R99, step by step -/

section Steps

variable {s : State} {d : Desc} {opc m : Byte} {x : Slots}

theorem stepModRM_side {side : Operand} {n : Nat} (hM : d.modRM = true) (hS : d.segModRM = false)
    (hreg : d.immediate = true → regField m = 0#3) (hm : s.fetch (some opc) x.n = .ok m)
    (hs : s.fetchSide opc (modField m) (rmField m) (x.n + 1) = .ok (side, n)) :
    s.stepModRM d opc x = .ok (sideSlots (d.directionBit opc) (some side)
      (if d.immediate then none else some (.reg (.gen (GReg.ofIndex (regField m))))) n) := by
  have hno : ¬ (d.immediate = true ∧ regField m ≠ 0#3) := fun h => h.2 (hreg h.1)
  simp only [State.stepModRM, hM, hS, hm, if_true, Bool.false_eq_true, if_false, if_neg hno, hs]

theorem stepModRM_reg_refused (hM : d.modRM = true) (hS : d.segModRM = false) (hI : d.immediate = true)
    (hreg : regField m ≠ 0#3) (hm : s.fetch (some opc) x.n = .ok m) :
    s.stepModRM d opc x = .error (s.decodeAbort opc (.unsupported opc m)) := by
  simp only [State.stepModRM, hM, hS, hm, if_true, Bool.false_eq_true, if_false, hI, hreg, ne_eq, not_false_eq_true,
    and_self, State.decodeAbort]

theorem stepModRM_seg {r : SReg} (hM : d.modRM = true) (hS : d.segModRM = true) (hmod : modField m = 3#2)
    (hr : SReg.ofIndex? (rmField m) = some r) (hm : s.fetch (some opc) x.n = .ok m) :
    s.stepModRM d opc x = .ok (sideSlots (d.directionBit opc) (some (.reg (.seg r)))
      (some (.reg (.gen (GReg.ofIndex (rmField m))))) (x.n + 1)) := by
  simp only [State.stepModRM, hM, hS, hm, if_true, hr, hmod]

theorem stepModRM_seg_refused (hM : d.modRM = true) (hS : d.segModRM = true)
    (hno : modField m ≠ 3#2 ∨ SReg.ofIndex? (rmField m) = none) (hm : s.fetch (some opc) x.n = .ok m) :
    s.stepModRM d opc x = .error (s.decodeAbort opc (.unsupported opc m)) := by
  simp only [State.stepModRM, hM, hS, hm, if_true]
  cases hr : SReg.ofIndex? (rmField m) with
  | none => rfl
  | some r =>
    have hmod : modField m ≠ 3#2 := hno.resolve_right (by simp [hr])
    simp only [hmod, if_false]
    rfl

theorem stepImmediate_byte {v : Byte} (hI : d.immediate = true) (hW : d.width = true) (hbit : d.widthBit opc = false)
    (hv : s.fetch (some opc) x.n = .ok v) : s.stepImmediate d opc x = .ok (fillSlot x (zext16 v) (x.n + 1)) := by
  simp only [State.stepImmediate, hI, hW, Bool.and_self, if_true, hbit, Bool.false_eq_true, if_false, hv]

theorem stepImmediate_word {v : Word} (hI : d.immediate = true) (hW : d.width = true) (hbit : d.widthBit opc = true)
    (hv : s.fetchField opc x.n = .ok v) : s.stepImmediate d opc x = .ok (fillSlot x v (x.n + 2)) := by
  simp only [State.stepImmediate, hI, hW, Bool.and_self, if_true, hbit, hv]

theorem stepImmediate_byte_error {e : AbortError} (hI : d.immediate = true) (hW : d.width = true)
    (hbit : d.widthBit opc = false) (hv : s.fetch (some opc) x.n = .error e) : s.stepImmediate d opc x = .error e := by
  simp only [State.stepImmediate, hI, hW, Bool.and_self, if_true, hbit, Bool.false_eq_true, if_false, hv]

theorem stepImmediate_word_error {e : AbortError} (hI : d.immediate = true) (hW : d.width = true)
    (hbit : d.widthBit opc = true) (hv : s.fetchField opc x.n = .error e) : s.stepImmediate d opc x = .error e := by
  simp only [State.stepImmediate, hI, hW, Bool.and_self, if_true, hbit, hv]

theorem stepDirect_address {a : Word} (hA : d.directAddress = true) (ha : s.fetchField opc x.n = .ok a) :
    s.stepDirect d opc x = .ok (sideSlots (d.directionBit opc) (some (.mem (s.eaLinear a.toNat)))
      (some (.reg (.gen .ax))) (x.n + 2)) := by
  simp only [State.stepDirect, hA, if_true, ha]

theorem stepModRM_none (h : d.modRM = false) : s.stepModRM d opc x = .ok x := by
  simp only [State.stepModRM, h, Bool.false_eq_true, if_false]

theorem stepImmediate_none (h : d.immediate = false) : s.stepImmediate d opc x = .ok x := by
  simp only [State.stepImmediate, h, Bool.false_and, Bool.false_eq_true, if_false]

theorem stepDirect_none (h : d.directAddress = false) : s.stepDirect d opc x = .ok x := by
  simp only [State.stepDirect, h, Bool.false_eq_true, if_false]

variable {y z : Slots} {e : AbortError}

theorem decodeRow_ok (hm : s.stepModRM d opc ⟨none, none, 1⟩ = .ok x)
    (hi : s.stepImmediate d opc (stepRegister d opc x) = .ok y) (hd : s.stepDirect d opc y = .ok z) :
    s.decodeRow d opc = .ok (z.decoded d.kind) := by
  simp only [State.decodeRow, hm, hi, hd, Slots.decoded]

theorem decodeRow_modRM_error (hm : s.stepModRM d opc ⟨none, none, 1⟩ = .error e) : s.decodeRow d opc = .error e := by
  simp only [State.decodeRow, hm]

theorem decodeRow_immediate_error (hm : s.stepModRM d opc ⟨none, none, 1⟩ = .ok x)
    (hi : s.stepImmediate d opc (stepRegister d opc x) = .error e) : s.decodeRow d opc = .error e := by
  simp only [State.decodeRow, hm, hi]

end Steps

/-! ### The algorithm on the rows with an immediate -/

theorem widthBit_rowRegImm (b opc : Byte) (n : Nat) : (rowRegImm b n).widthBit opc = opc.getLsbD 3 := rfl

theorem widthBit_rowModRMImm (b opc : Byte) (n : Nat) : (rowModRMImm b n).widthBit opc = opc.getLsbD 0 := rfl

theorem decodeRow_rowRegImm8 {s : State} {opc v : Byte} (b : Byte) (n : Nat) (width : opc.getLsbD 3 = false)
    (hv : s.fetch (some opc) 1 = .ok v) : s.decodeRow (rowRegImm b n) opc =
      .ok ⟨.move, some (.reg (.gen (opcodeReg opc))), some (.imm (zext16 v)), 2⟩ := by
  have hi := stepImmediate_byte (x := stepRegister (rowRegImm b n) opc ⟨none, none, 1⟩) rfl rfl
    ((widthBit_rowRegImm b opc n).trans width) hv
  rw [decodeRow_ok (stepModRM_none rfl) hi (stepDirect_none rfl)]
  rfl

theorem decodeRow_rowRegImm16 {s : State} {opc : Byte} {v : Word} (b : Byte) (n : Nat) (width : opc.getLsbD 3 = true)
    (hv : s.fetchField opc 1 = .ok v) : s.decodeRow (rowRegImm b n) opc =
      .ok ⟨.move, some (.reg (.gen (opcodeReg opc))), some (.imm v), 3⟩ := by
  have hi := stepImmediate_word (x := stepRegister (rowRegImm b n) opc ⟨none, none, 1⟩) rfl rfl
    ((widthBit_rowRegImm b opc n).trans width) hv
  rw [decodeRow_ok (stepModRM_none rfl) hi (stepDirect_none rfl)]
  rfl

theorem stepModRM_rowModRMImm {s : State} {opc m : Byte} {side : Operand} {k : Nat} (b : Byte) (n : Nat)
    (direction : opc.getLsbD 1 = true) (hreg : regField m = 0#3) (hm : s.fetch (some opc) 1 = .ok m)
    (hs : s.fetchSide opc (modField m) (rmField m) 2 = .ok (side, k)) :
    s.stepModRM (rowModRMImm b n) opc ⟨none, none, 1⟩ = .ok ⟨some side, none, k⟩ := by
  have hdir : (rowModRMImm b n).directionBit opc = true := direction
  have hside := stepModRM_side (d := rowModRMImm b n) (x := ⟨none, none, 1⟩) rfl rfl (fun _ => hreg) hm hs
  rw [hside, hdir]
  rfl

/-! ### Agreement of the two decoders -/

/-- What the decoder on bytes and the table-driven decoder answer is the same: an instruction that runs as the dispatch on
the decoded slots, or the same error. -/
inductive DecodersAgree (s : State) (opc : Byte) : DecodeResult → Except AbortError Decoded → Prop where
  | instr {i : Instr} {rest : List Byte} {x : Decoded} (run : exec i s = .next (s.dispatch opc x)) :
      DecodersAgree s opc (.ok (i, rest)) (.ok x)
  | error (e : DecodeError) : DecodersAgree s opc (.error e) (.error (s.decodeAbort opc e))

/-- On the bytes after the opcode byte each format's decoder agrees with the algorithm R99 on the format's row. -/
theorem RowFormat.agrees {opc : Byte} {d : Desc} {f : List Byte → DecodeResult} (hf : RowFormat opc d f) {s : State}
    (hin : ∀ k, k ≤ 3 → s.fetchAddr k < Config.cap) : DecodersAgree s opc (f (s.window.drop 1)) (s.decodeRow d opc) := by
  have h4 := four_le_window hin
  have h1 : 1 < s.window.length := by omega
  have h2 : 2 < s.window.length := by omega
  have hm := fetch_window (some opc) h1
  cases hf with
  | modRM mk law =>
    obtain ⟨r, htake, hside⟩ := takeRm_window hin opc (modField s.window[1]) (rmField s.window[1])
    have hslots := stepModRM_side (d := rowModRM opc) (x := ⟨none, none, 1⟩) rfl rfl nofun hm hside
    rw [decodeModRM, takeByte_drop h1, htake, decodeRow_ok hslots (stepImmediate_none rfl) (stepDirect_none rfl)]
    exact .instr ((law _ r).exec s)
  | segModRM mk law =>
    rw [decodeSegModRM, takeByte_drop h1]
    by_cases hmod : modField s.window[1] = 3#2
    · rw [if_pos hmod]
      cases hr : SReg.ofIndex? (rmField s.window[1]) with
      | none =>
        rw [decodeRow_modRM_error (stepModRM_seg_refused rfl rfl (.inr hr) hm)]
        exact .error _
      | some r =>
        rw [decodeRow_ok (stepModRM_seg rfl rfl hmod hr hm) (stepImmediate_none rfl) (stepDirect_none rfl),
          ← SReg.index_of_ofIndex? hr]
        exact .instr ((law _ r).exec s)
    · rw [if_neg hmod, decodeRow_modRM_error (stepModRM_seg_refused rfl rfl (.inl hmod) hm)]
      exact .error _
  | direct mk law =>
    rw [decodeDirect, takeWord_drop h2, decodeRow_ok (stepModRM_none rfl) (stepImmediate_none rfl)
      (stepDirect_address rfl (fetchField_window opc h2))]
    exact .instr ((law _).exec s)
  | regImm8 n mk width law =>
    rw [decodeImm8, takeByte_drop h1, decodeRow_rowRegImm8 opc n width hm]
    exact .instr ((law _).exec s)
  | regImm16 n mk width law =>
    rw [decodeImm16, takeWord_drop h2, decodeRow_rowRegImm16 opc n width (fetchField_window opc h2)]
    exact .instr ((law _).exec s)
  | rmImm8 n mk width direction law =>
    have hbit := (widthBit_rowModRMImm opc opc n).trans width
    rw [decodeRmImm8, takeByte_drop h1]
    by_cases hreg : regField s.window[1] = 0#3
    · obtain ⟨r, htake, hside⟩ := takeRm_window hin opc (modField s.window[1]) (rmField s.window[1])
      have hle := r.dispLen_le
      have hsize : 3 + r.dispLen = 2 + r.dispLen + 1 := Nat.add_right_comm 2 1 _
      have hslots := stepModRM_rowModRMImm opc n direction hreg hm hside
      rw [if_pos hreg, htake]
      obtain ⟨v, hv, htv⟩ | ⟨hv, htv⟩ := takeByte_window (s := s) opc (k := 2 + r.dispLen) (by omega) (by omega)
      · rw [htv, decodeRow_ok hslots (stepImmediate_byte rfl rfl hbit hv) (stepDirect_none rfl)]
        exact .instr (hsize ▸ (law r v).exec s)
      · rw [htv, decodeRow_immediate_error hslots (stepImmediate_byte_error rfl rfl hbit hv)]
        exact .error _
    · rw [if_neg hreg, decodeRow_modRM_error (stepModRM_reg_refused rfl rfl rfl hreg hm)]
      exact .error _
  | rmImm16 n mk width direction law =>
    have hbit := (widthBit_rowModRMImm opc opc n).trans width
    rw [decodeRmImm16, takeByte_drop h1]
    by_cases hreg : regField s.window[1] = 0#3
    · obtain ⟨r, htake, hside⟩ := takeRm_window hin opc (modField s.window[1]) (rmField s.window[1])
      have hle := r.dispLen_le
      have hsize : 4 + r.dispLen = 2 + r.dispLen + 2 := Nat.add_right_comm 2 2 _
      have hslots := stepModRM_rowModRMImm opc n direction hreg hm hside
      rw [if_pos hreg, htake]
      obtain ⟨v, hv, htv⟩ | ⟨hv, htv⟩ := takeWord_window (s := s) opc (k := 2 + r.dispLen) (by omega) (by omega)
      · rw [htv, decodeRow_ok hslots (stepImmediate_word rfl rfl hbit hv) (stepDirect_none rfl)]
        exact .instr (hsize ▸ (law r v).exec s)
      · rw [htv, decodeRow_immediate_error hslots (stepImmediate_word_error rfl rfl hbit hv)]
        exact .error _
    · rw [if_neg hreg, decodeRow_modRM_error (stepModRM_reg_refused rfl rfl rfl hreg hm)]
      exact .error _
  | halt i law => exact .instr (law.exec s)

/-! ### The step -/

/-- The window starts with the opcode byte, so decoding it is decoding what follows. -/
theorem decode_window {s : State} {opc : Byte} (h : s.getByte (s.fetchAddr 0) = .ok opc) :
    decode s.window = decodeAfter opc (s.window.drop 1) := by
  obtain ⟨hlt, rfl⟩ := getByte_eq_ok.1 h
  rw [State.window, bytesFrom_ok _ hlt]
  rfl

theorem step_of_fetch_instr {s : State} {i : Instr} (hr : s.run = .running) (hf : s.fetchInstr = .instr i) :
    step s = exec i s := by
  simp only [step, hr, hf]

theorem fetchInstr_decode_ok {s : State} {opc : Byte} {d : Desc} {i : Instr} {rest : List Byte}
    (ho : s.fetchOpcode = .ok (opc, d)) (hd : defaultRow opc = some d) (ha : s.readAhead opc = .ok ())
    (h : decode s.window = .ok (i, rest)) : s.fetchInstr = .instr i := by
  have hshape : d.shapeOk = true := defaultTable_shapeOk d (defaultRow_byte hd).1
  simp only [State.fetchInstr, ho, hshape, if_true, ha, hd, h]

/-- An opcode byte is fetched with its row from memory (R100). -/
theorem fetchOpcode_eq_ok {s : State} {opc : Byte} {d : Desc} (h : s.fetchOpcode = .ok (opc, d)) :
    s.getByte (s.fetchAddr 0) = .ok opc ∧ s.params.lookup opc = some d := by
  unfold State.fetchOpcode State.fetch at h
  split at h
  · cases h
  · rename_i b hb
    split at h <;> cases h
    split at hb <;> cases hb
    exact ⟨‹_›, ‹_›⟩

theorem fetchAddr_lt_of_readAhead {s : State} {opc b : Byte} (h0 : s.getByte (s.fetchAddr 0) = .ok b)
    (ha : s.readAhead opc = .ok ()) : ∀ k, k ≤ 3 → s.fetchAddr k < Config.cap := by
  obtain ⟨h1, h2, h3⟩ := readAhead_eq_ok ha
  intro k hk
  have hk : k = 0 ∨ k = 1 ∨ k = 2 ∨ k = 3 := by omega
  rcases hk with rfl | rfl | rfl | rfl
  · exact (getByte_eq_ok.1 h0).1
  · exact h1
  · exact h2
  · exact h3

/-- Once the opcode byte, its row and the read-ahead bytes are read, the step runs the row by the algorithm R99, whether
the row is the default table's or another one of a known shape (R130). -/
theorem step_eq_runRow {s : State} {opc : Byte} {d : Desc} (hr : s.run = .running)
    (ho : s.fetchOpcode = .ok (opc, d)) (hd : d.shapeOk = true) (ha : s.readAhead opc = .ok ()) :
    step s = .next (s.runRow opc d) := by
  obtain ⟨h0, -⟩ := fetchOpcode_eq_ok ho
  have hin := fetchAddr_lt_of_readAhead h0 ha
  by_cases hdef : defaultRow opc = some d
  · have hagree := (rowFormat_of_defaultRow hdef).agrees hin
    rw [← decode_window h0] at hagree
    unfold State.runRow
    generalize hw : decode s.window = r at hagree
    generalize s.decodeRow d opc = y at hagree
    cases hagree with
    | instr run => exact (step_of_fetch_instr hr (fetchInstr_decode_ok ho hdef ha hw)).trans run
    | error e => exact step_of_fetch_abort hr (fetchInstr_decode_error ho hdef ha hw)
  · simp only [step, hr, State.fetchInstr, ho, hd, if_true, ha, if_neg hdef]

/-- Settles O16: both steps abort alike before the row is decoded, and then run it (`step_eq_runRow`). -/
theorem stepIsTableDrivenStep : Obligations.StepIsTableDrivenStep := by
  intro s hr hshape
  cases ho : s.fetchOpcode with
  | error e => 
    rw [step_of_fetch_abort hr (fetchInstr_opcode_error ho)]
    simp only [State.engineStep, State.decodeAt, ho]
  | ok p =>
    obtain ⟨opc, d⟩ := p
    have hd : d.shapeOk = true := hshape d (lookup_some (fetchOpcode_eq_ok ho).2).1
    cases ha : s.readAhead opc with
    | error e =>
      rw [step_of_fetch_abort hr (fetchInstr_readAhead_error ho hd ha)]
      simp only [State.engineStep, State.decodeAt, ho, ha]
    | ok u =>
      rw [step_eq_runRow hr ho hd ha]
      simp only [State.engineStep, State.decodeAt, State.runRow, ho, ha]
      cases s.decodeRow d opc <;> rfl

end Sys2Proof.Machine
end

section
/-! What the decoder refuses (R123, R124), and the steps that follow from it: the step of an encoded instruction, of a
refused ModRM form, of a byte without a row, of a row of format REGIMM at any byte. -/

namespace Sys2Proof.Machine

/-! ### Errors of the decoder -/

theorem takeByte_eq_error {bs : List Byte} {k : Byte → List Byte → DecodeResult} {e : DecodeError}
    (h : takeByte bs k = .error e) : e = .truncated ∨ ∃ b rest, bs = b :: rest ∧ k b rest = .error e := by
  cases bs with
  | nil => cases h; exact .inl rfl
  | cons b rest => exact .inr ⟨b, rest, rfl, h⟩

theorem takeWord_eq_error {bs : List Byte} {k : Word → List Byte → DecodeResult} {e : DecodeError}
    (h : takeWord bs k = .error e) : e = .truncated ∨ ∃ w rest, k w rest = .error e := by
  match bs, h with
  | [], h => cases h; exact .inl rfl
  | [_], h => cases h; exact .inl rfl
  | lo :: hi :: rest, h => exact .inr ⟨le16 lo hi, rest, h⟩

theorem takeRm_eq_error {mod : BitVec 2} {rm : BitVec 3} {bs : List Byte} {k : RmOp → List Byte → DecodeResult}
    {e : DecodeError} (h : takeRm mod rm bs k = .error e) : e = .truncated ∨ ∃ rm rest, k rm rest = .error e := by
  unfold takeRm at h
  split at h
  · split at h
    · exact (takeWord_eq_error h).imp_right fun ⟨_, rest, hk⟩ => ⟨_, rest, hk⟩
    · exact .inr ⟨_, _, h⟩
  · exact (takeByte_eq_error h).imp_right fun ⟨_, rest, _, hk⟩ => ⟨_, rest, hk⟩
  · exact (takeWord_eq_error h).imp_right fun ⟨_, rest, hk⟩ => ⟨_, rest, hk⟩
  · exact .inr ⟨_, _, h⟩

/-- The ModRM bytes a row refuses, by its flags (R114, R115): with S a mod other than 3 or an rm that names no segment
register, with M and I a reg field other than 0. -/
def Desc.Refuses (d : Desc) (m : Byte) : Prop :=
  (d.segModRM = true ∧ (modField m ≠ 3#2 ∨ SReg.ofIndex? (rmField m) = none)) ∨
  (d.modRM = true ∧ d.immediate = true ∧ regField m ≠ 0#3)

/-- A format fails for want of bytes, or on a ModRM byte its row refuses. -/
theorem RowFormat.error_eq {opc : Byte} {d : Desc} {f : List Byte → DecodeResult} (hf : RowFormat opc d f)
    {bs : List Byte} {e : DecodeError} (h : f bs = .error e) :
    e = .truncated ∨ ∃ m rest, bs = m :: rest ∧ e = .unsupported opc m ∧ Desc.Refuses d m := by
  cases hf with
  | modRM mk law =>
    obtain ht | ⟨m, rest, -, h⟩ := takeByte_eq_error h
    · exact .inl ht
    · exact (takeRm_eq_error h).imp_right fun ⟨_, _, h⟩ => nomatch h
  | segModRM mk law =>
    obtain ht | ⟨m, rest, hbs, h⟩ := takeByte_eq_error h
    · exact .inl ht
    · split at h
      · split at h <;> cases h
        exact .inr ⟨m, rest, hbs, rfl, .inl ⟨rfl, .inr ‹_›⟩⟩
      · cases h
        exact .inr ⟨m, rest, hbs, rfl, .inl ⟨rfl, .inl ‹_›⟩⟩
  | direct mk law => exact (takeWord_eq_error h).imp_right fun ⟨_, _, h⟩ => nomatch h
  | regImm8 n mk width law => exact (takeByte_eq_error h).imp_right fun ⟨_, _, _, h⟩ => nomatch h
  | regImm16 n mk width law => exact (takeWord_eq_error h).imp_right fun ⟨_, _, h⟩ => nomatch h
  | rmImm8 n mk width direction law =>
    obtain ht | ⟨m, rest, hbs, h⟩ := takeByte_eq_error h
    · exact .inl ht
    · split at h
      · obtain ht | ⟨rm, rest, h⟩ := takeRm_eq_error h
        · exact .inl ht
        · exact (takeByte_eq_error h).imp_right fun ⟨_, _, _, h⟩ => nomatch h
      · cases h
        exact .inr ⟨m, rest, hbs, rfl, .inr ⟨rfl, rfl, ‹_›⟩⟩
  | rmImm16 n mk width direction law =>
    obtain ht | ⟨m, rest, hbs, h⟩ := takeByte_eq_error h
    · exact .inl ht
    · split at h
      · obtain ht | ⟨rm, rest, h⟩ := takeRm_eq_error h
        · exact .inl ht
        · exact (takeWord_eq_error h).imp_right fun ⟨_, _, h⟩ => nomatch h
      · cases h
        exact .inr ⟨m, rest, hbs, rfl, .inr ⟨rfl, rfl, ‹_›⟩⟩
  | halt i law => cases h

/-- A format fails on every ModRM byte its row refuses. -/
theorem RowFormat.eq_unsupported {opc : Byte} {d : Desc} {f : List Byte → DecodeResult} (hf : RowFormat opc d f)
    {m : Byte} (h : Desc.Refuses d m) (rest : List Byte) : f (m :: rest) = .error (.unsupported opc m) := by
  cases hf with
  | segModRM mk law =>
    obtain ⟨-, hno⟩ | ⟨-, himm, -⟩ := h
    · simp only [decodeSegModRM, takeByte]
      split
      · rw [hno.resolve_left (not_not_intro ‹_›)]
      · rfl
    · cases himm
  | rmImm8 n mk width direction law =>
    obtain ⟨hseg, -⟩ | ⟨-, -, hreg⟩ := h
    · cases hseg
    · simp only [decodeRmImm8, takeByte, hreg, if_false]
  | rmImm16 n mk width direction law =>
    obtain ⟨hseg, -⟩ | ⟨-, -, hreg⟩ := h
    · cases hseg
    · simp only [decodeRmImm16, takeByte, hreg, if_false]
  | _ => obtain ⟨hseg, -⟩ | ⟨hmod, himm, -⟩ := h <;> contradiction

theorem modField_eq_three_iff (m : Byte) : modField m = 3#2 ↔ m.toNat / 64 = 3 := by revert m; decide

theorem regField_eq_zero_iff (m : Byte) : regField m = 0#3 ↔ m.toNat / 8 % 8 = 0 := by revert m; decide

theorem ofIndex?_rmField_eq_none_iff (m : Byte) : SReg.ofIndex? (rmField m) = none ↔ 3 < m.toNat % 8 := by
  revert m; decide

/-- The rows of the default table that refuse some ModRM byte, by opcode byte (R92, R94). -/
theorem refusing_rows : ∀ d ∈ defaultTable, (d.segModRM = true ↔ d.byte = 0x8C ∨ d.byte = 0x8E) ∧
    (d.modRM = true ∧ d.immediate = true ↔ d.byte = 0xC6 ∨ d.byte = 0xC7) := by decide

/-- The forms R124 lists. -/
def RefusedForm (opc m : Byte) : Prop :=
  ((opc = 0x8C ∨ opc = 0x8E) ∧ (m.toNat / 64 ≠ 3 ∨ 3 < m.toNat % 8)) ∨
    ((opc = 0xC6 ∨ opc = 0xC7) ∧ m.toNat / 8 % 8 ≠ 0)

theorem refuses_iff {opc m : Byte} {d : Desc} (h : defaultRow opc = some d) : Desc.Refuses d m ↔ RefusedForm opc m := by
  obtain ⟨hmem, rfl⟩ := defaultRow_byte h
  obtain ⟨hseg, himm⟩ := refusing_rows d hmem
  rw [Desc.Refuses, RefusedForm, hseg, ← and_assoc, himm, ne_eq, modField_eq_three_iff, ofIndex?_rmField_eq_none_iff,
    ne_eq, regField_eq_zero_iff]

theorem RefusedForm.has_row {opc m : Byte} (h : RefusedForm opc m) : ∃ d, defaultRow opc = some d := by
  obtain ⟨rfl | rfl, -⟩ | ⟨rfl | rfl, -⟩ := h <;> exact ⟨_, rfl⟩

theorem decode_unrecognized_iff (opc : Byte) (bs : List Byte) :
    decode (opc :: bs) = .error (.unrecognized opc) ↔ defaultRow opc = none := by
  refine ⟨fun h => ?_, fun h => decodeAfter_of_no_row h bs⟩
  cases hd : defaultRow opc with
  | none => rfl
  | some d =>
    obtain ht | ⟨m, rest, -, hu, -⟩ := (rowFormat_of_defaultRow hd).error_eq h
    · cases ht
    · cases hu

theorem decode_unsupported_iff (opc m : Byte) (rest : List Byte) :
    decode (opc :: m :: rest) = .error (.unsupported opc m) ↔ RefusedForm opc m := by
  constructor
  · intro h
    cases hd : defaultRow opc with
    | none => cases (decodeAfter_of_no_row hd (m :: rest)).symm.trans h
    | some d =>
      obtain ht | ⟨m', rest', hbs, -, href⟩ := (rowFormat_of_defaultRow hd).error_eq h
      · cases ht
      · cases hbs
        exact (refuses_iff hd).1 href
  · intro h
    obtain ⟨d, hd⟩ := h.has_row
    exact (rowFormat_of_defaultRow hd).eq_unsupported ((refuses_iff hd).2 h) rest

/-- Settles O11: the errors of a format are those of `RowFormat.error_eq`, read by opcode byte. -/
theorem decoderRefusesExactlyTheListedForms : Obligations.DecoderRefusesExactlyTheListedForms :=
  ⟨decode_unrecognized_iff, decode_unsupported_iff⟩

/-! ### Steps of the default table's rows -/

/-- Settles O50: the decoder refuses the form, and the step aborts with its error. -/
theorem unsupportedFormAborts : Obligations.UnsupportedFormAborts := by
  intro s opc m hr h0 h1 h2 h3 hl (href : RefusedForm opc m)
  obtain ⟨d, hd⟩ := href.has_row
  have hlt1 := (getByte_eq_ok.1 h1).1
  have hw : decode s.window = .error (.unsupported opc m) := by
    have hcons := bytesFrom_ok 4 hlt1
    rw [(getByte_eq_ok.1 h1).2] at hcons
    rw [State.window, bytesFrom_ok 5 (getByte_eq_ok.1 h0).1, (getByte_eq_ok.1 h0).2, hcons]
    exact (decode_unsupported_iff opc m _).2 href
  have hf := fetchInstr_decode_error (fetchOpcode_ok h0 (hl.trans hd)) hd (readAhead_ok opc hlt1 h2 h3) hw
  exact ⟨_, step_of_fetch_abort hr hf, abortsUnchanged_raise _ _⟩

/-- Settles O14: the decoded instruction is its encoding (O9), so the byte at CS:IP is its opcode byte, whose row the
lookup answers. -/
theorem stepRunsDecodedInstruction : Obligations.StepRunsDecodedInstruction := by
  intro s i rest hr hdec hin hl
  obtain ⟨d, hd⟩ := defaultRow_opcode i
  obtain ⟨-, hbytes, -⟩ := encodeOfDecodeIsBytes _ _ _ hdec
  have h0 : s.getByte (s.fetchAddr 0) = .ok i.opcode := by
    have hlen : 0 < s.window.length := by rw [hbytes]; exact Nat.succ_pos _
    rw [getByte_window hlen]
    simp only [hbytes]
    rfl
  have ha := readAhead_ok i.opcode (hin 1 (by decide)) (hin 2 (by decide)) (hin 3 (by decide))
  exact step_of_fetch_instr hr (fetchInstr_decode_ok (fetchOpcode_ok h0 (hl.trans hd)) hd ha hdec)

/-- Settles O15: the window starts with the encoding, which decodes to the instruction (O8, O14). -/
theorem stepRunsEncodedBytes : Obligations.StepRunsEncodedBytes := by
  intro s i hr hwf hbytes hin hl
  have hw := bytesFrom_prefix s (encode i) 0 6 (encode_length_le i) fun j hj => by
    rw [Nat.zero_add]
    exact hbytes j hj
  have hdec : decode s.window = _ := hw ▸ decodeOfEncodeIsInstruction i _ hwf
  exact stepRunsDecodedInstruction s i _ hr hdec hin hl

/-! ### Rows by the parameters of the table -/

theorem step_of_no_row {s : State} {opc : Byte} (hr : s.run = .running) (h0 : s.getByte (s.fetchAddr 0) = .ok opc)
    (hl : s.params.lookup opc = none) : step s = .next (s.raise (.unrecognizedEncoding opc s.seg.cs s.ip)) := by
  have ho : s.fetchOpcode = .error (.unrecognizedEncoding opc s.seg.cs s.ip) := by
    simp only [State.fetchOpcode, State.fetch, h0, hl]
  exact step_of_fetch_abort hr (fetchInstr_opcode_error ho)

/-- The default parameters with `P_BYTE_ROWS` false (R96). -/
def wordRowParams : Params := { defaultParams with byteRows := false }

theorem byteRows_removed : ∀ opc ∈ ([0x88, 0x8A, 0xA0, 0xA2, 0xB0, 0xB1, 0xB2, 0xB3, 0xB4, 0xB5, 0xB6, 0xB7, 0xC6] :
    List Byte), wordRowParams.lookup opc = none := by decide

theorem wordRows_kept : ∀ opc ∈ ([0x89, 0x8B, 0x8C, 0x8E, 0xA1, 0xA3, 0xB8, 0xB9, 0xBA, 0xBB, 0xBC, 0xBD, 0xBE, 0xBF,
    0xC7, 0xF4] : List Byte), wordRowParams.lookup opc = defaultRow opc ∧ (defaultRow opc).isSome := by decide

/-- Settles O55: without byte rows the lookup in the default table finds none of the first bytes and all of the second. -/
theorem byteRowsParameterRemovesWidthClearRows : Obligations.ByteRowsParameterRemovesWidthClearRows := by
  intro s opc hr htable hbyte h0
  have hlookup : s.params.lookup opc = wordRowParams.lookup opc := by
    simp only [Params.lookup, htable, hbyte, wordRowParams, defaultParams]
  rw [hlookup]
  refine ⟨fun hmem => ⟨_, step_of_no_row hr h0 ?_, abortsUnchanged_raise _ _⟩, wordRows_kept opc⟩
  exact hlookup.trans (byteRows_removed opc hmem)

theorem opcodeReg_eq (opc : Byte) : opcodeReg opc = GReg.ofIndex (BitVec.ofNat 3 opc.toNat) := by revert opc; decide

/-- A row of format REGIMM whose decoding is known loads the register its opcode byte names. -/
theorem step_rowRegImm {s : State} {opc : Byte} {n size : Nat} {v : Word} (hr : s.run = .running)
    (ho : s.fetchOpcode = .ok (opc, rowRegImm opc n)) (ha : s.readAhead opc = .ok ())
    (hd : s.decodeRow (rowRegImm opc n) opc =
      .ok ⟨.move, some (.reg (.gen (opcodeReg opc))), some (.imm v), size⟩) :
    ∃ t, step s = .next t ∧ LoadsGpr s t (GReg.ofIndex (BitVec.ofNat 3 opc.toNat)) v size := by
  refine ⟨_, (step_eq_runRow hr ho rfl ha).trans ?_, loadsGpr_writeReg s _ v size⟩
  simp only [State.runRow, hd, State.dispatch, opcodeReg_eq]
  rw [move_reg opc size _ (show s.readOperand (.imm v) = .ok v from rfl)]

/-- Settles O56: the row runs by the algorithm R99, which reads the immediate at offset 1. -/
theorem registerImmediateRowRunsAtAnyByte : Obligations.RegisterImmediateRowRunsAtAnyByte := by
  intro s opc b1 b2 n hr h0 h1 h2 h3 hl
  have ho := fetchOpcode_ok h0 hl
  have ha := readAhead_ok opc (getByte_eq_ok.1 h1).1 (getByte_eq_ok.1 h2).1 h3
  have hf1 : s.fetch (some opc) 1 = .ok b1 := by simp only [State.fetch, h1]
  have hf2 : s.fetch (some opc) 2 = .ok b2 := by simp only [State.fetch, h2]
  have hfield : s.fetchField opc 1 = .ok (le16 b1 b2) := by simp only [State.fetchField, hf1, hf2]
  refine ⟨fun hbit v hv => ?_, fun hbit v hv => ?_⟩
  · obtain rfl : v = zext16 b1 := BitVec.eq_of_toNat_eq (hv.trans (zext16_toNat b1).symm)
    exact step_rowRegImm hr ho ha (decodeRow_rowRegImm8 opc n hbit hf1)
  · obtain rfl : v = le16 b1 b2 := BitVec.eq_of_toNat_eq (hv.trans (le16_toNat b1 b2).symm)
    exact step_rowRegImm hr ho ha (decodeRow_rowRegImm16 opc n hbit hfield)

end Sys2Proof.Machine
end

section
/-! The opcode table and the launch that takes it (R88, R95 to R98, R252). -/

namespace Sys2Proof.Machine

/-- An image that ends at the capacity has 0x1FEF0 bytes (R252). -/
theorem imageLimit_eq : imageLimit = 0x1FEF0 := rfl

/-- Settles O2: the three clauses are the three branches of `launch`. -/
theorem launchRefusesBadTablesAndLongImages : Obligations.LaunchRefusesBadTablesAndLongImages := by
  intro x
  refine ⟨fun ht => ?_, fun ht hlen => ?_, fun ht hlen => ⟨loaderInit x, ?_⟩⟩
  · simp only [launch, ht, Bool.not_false, if_true]
  · simp only [launch, ht, Bool.not_true, Bool.false_eq_true, if_false, imageLimit_eq, hlen, if_true]
  · simp only [launch, ht, Bool.not_true, Bool.false_eq_true, if_false, imageLimit_eq, Nat.not_lt.2 hlen]

/-- With distinct bytes a row is the first one of its byte (R97). -/
theorem find?_eq_some_of_bytesDistinct {t : List Desc} (h : bytesDistinct t = true) {d : Desc} (hd : d ∈ t) :
    t.find? (fun e => e.byte == d.byte) = some d := by
  induction t with
  | nil => cases hd
  | cons e t ih =>
    simp only [bytesDistinct, Bool.and_eq_true, List.all_eq_true, bne_iff_ne] at h
    obtain ⟨hne, ht⟩ := h
    rcases List.mem_cons.1 hd with rfl | hd
    · exact List.find?_cons_of_pos (beq_self_eq_true _)
    · rw [List.find?_cons_of_neg (by simpa using Ne.symm (hne d hd)), ih ht hd]

/-- With `P_BYTE_ROWS` true no row is removed (R96). -/
theorem lookup_of_byteRows {p : Params} (h : p.byteRows = true) (opc : Byte) :
    p.lookup opc = p.table.find? fun d => d.byte == opc := by
  simp only [Params.lookup, Desc.keptBy, h, Bool.true_or, Bool.and_true]

theorem Ends.params {s t : State} {op1 : Option Operand} {n : Nat} (h : Ends s op1 n t) : t.params = s.params := by
  cases h with
  | abort m e wf position => rfl
  | register r v slot => simp
  | memory m wf => rfl
  | halt => rfl

/-- Settles O13: lookup is the first row of the byte, and no end of an instruction has other parameters. -/
theorem tableLookupIsExactAndConstant : Obligations.TableLookupIsExactAndConstant := by
  refine ⟨fun p opc d h => ?_, fun p hb ht d hd => ?_, fun p opc hb => ?_, fun s t h => ?_⟩
  · obtain ⟨hmem, hbyte, -⟩ := lookup_some h
    exact ⟨hmem, hbyte⟩
  · rw [lookup_of_byteRows hb, find?_eq_some_of_bytesDistinct ht hd]
  · simp only [lookup_of_byteRows hb, List.find?_eq_none, beq_iff_eq, ne_eq]
  · rcases step_ends h with ⟨-, rfl⟩ | ⟨-, op1, n, -, he⟩
    · rfl
    · exact he.params

/-- Settles O12: the table is a closed list, and the bytes without a row are counted. -/
theorem defaultTableIsWellFormed : Obligations.DefaultTableIsWellFormed :=
  ⟨tableOk_defaultTable, rfl, by decide +kernel⟩

/-- Settles O10: each word is decoded by its row's format. -/
theorem specWordsDecodeAsWritten : Obligations.SpecWordsDecodeAsWritten :=
  ⟨rfl, rfl, rfl, rfl, rfl, rfl, rfl, rfl, rfl, rfl, rfl, rfl, rfl⟩

end Sys2Proof.Machine
end

section
/-! Operands: the effective address of every ModRM form and its bound (R105 to R111). -/

namespace Sys2Proof.Machine

/-- Settles O27: the bases are sums of two general registers at most. -/
theorem effectiveAddressBases : Obligations.EffectiveAddressBases :=
  fun s => ⟨rfl, rfl, rfl, rfl, rfl, rfl, rfl, rfl, fun rm => eaBase_le s (EaBase.ofIndex rm)⟩

theorem modField_toNat (m : Byte) : (modField m).toNat = m.toNat / 64 := by revert m; decide

theorem regField_toNat (m : Byte) : (regField m).toNat = m.toNat / 8 % 8 := by revert m; decide

theorem rmField_toNat (m : Byte) : (rmField m).toNat = m.toNat % 8 := by revert m; decide

theorem wrapEa_of_wrap {s : State} (h : s.params.eaWrap16 = true) (n : Nat) : s.wrapEa n = n % 65536 := by
  simp only [State.wrapEa, h, if_true]

theorem wrapEa_of_nowrap {s : State} (h : s.params.eaWrap16 = false) (n : Nat) : s.wrapEa n = n := by
  simp only [State.wrapEa, h, Bool.false_eq_true, if_false]

/-- The segment part is added to the effective address, whatever `P_EA_SEG` is (R111). -/
theorem eaLinear_eq_add (s : State) (ea : Nat) : s.eaLinear ea = s.eaLinear 0 + ea := by
  unfold State.eaLinear
  cases s.params.eaSeg with
  | unsegmented => exact (Nat.zero_add ea).symm
  | ds => simp only [lin, Nat.add_zero]

theorem eaLinear_zero_unsegmented {s : State} (h : s.params.eaSeg = .unsegmented) : s.eaLinear 0 = 0 := by
  simp only [State.eaLinear, h]

theorem eaLinear_zero_ds {s : State} (h : s.params.eaSeg = .ds) : s.eaLinear 0 = s.seg.ds.toNat * 16 := by
  simp only [State.eaLinear, h, lin, Nat.add_zero]

/-- Settles O28: a branch of `takeRm` for each mod, and `resolve` without the wrap. -/
theorem modRMFieldsAndForms : Obligations.ModRMFieldsAndForms := by
  refine ⟨fun m => ⟨modField_toNat m, regField_toNat m, rmField_toNat m⟩, fun rm b0 b1 bs k => ?_,
    fun s b a d16 d8 hw => ?_⟩
  · exact ⟨fun h => if_neg h, ⟨le16 b0 b1, le16_toNat b0 b1, rfl⟩, rfl, ⟨le16 b0 b1, le16_toNat b0 b1, rfl⟩, rfl⟩
  · simp only [State.resolve, wrapEa_of_nowrap hw, and_self]

/-- Settles O29: the segment part is the linear address of 0. -/
theorem operandOfEachRmForm : Obligations.OperandOfEachRmForm := by
  intro s r a d16 d8 b
  refine ⟨rfl, s.eaLinear 0, eaLinear_zero_unsegmented, eaLinear_zero_ds, ?_, fun hw => ?_, fun hw => ?_⟩
  · rw [State.resolve, eaLinear_eq_add]
  · simp only [State.resolve, wrapEa_of_nowrap hw, ← eaLinear_eq_add, and_self]
  · simp only [State.resolve, wrapEa_of_wrap hw, ← eaLinear_eq_add, and_self]

/-- The source of an instruction, if it is memory, is the side of a ModRM form or a direct address. -/
theorem moveSlots_source_namesSide {i : Instr} {s : State} {dst src : Operand} (h : moveSlots i s = some (dst, src)) :
    s.NamesSide (some src) := by
  cases i with
  | movbRegRm reg rm | movRegRm reg rm => cases h; exact namesSide_resolve s rm
  | movbAxMem addr | movAxMem addr => cases h; exact namesSide_direct s addr
  | movbRmReg rm reg | movRmReg rm reg => cases h; exact namesSide_reg s _
  | movGprSeg ign r | movSegGpr ign r => cases h; exact namesSide_reg s _
  | movbMemAx addr | movMemAx addr => cases h; exact namesSide_reg s _
  | hlt => cases h
  | _ => cases h; exact namesSide_imm s _

/-- Under the default `P_EA_SEG` both bytes at a named side are inside memory (R110, R111). -/
theorem namesSide_in_range {s : State} {a : Nat} (hea : s.params.eaSeg = .unsegmented)
    (h : s.NamesSide (some (.mem a))) : a ≤ 0x2FFFD ∧ a + 1 < Config.cap := by
  obtain ⟨rm, hrm⟩ := h a rfl
  have hle := resolve_le hea rm a hrm
  have hcap : 0x2FFFD + 1 < Config.cap := by decide
  exact ⟨hle, by omega⟩

/-- Settles O30: a load's source and a store's destination name a side. -/
theorem unsegmentedMemoryOperandsAreInRange : Obligations.UnsegmentedMemoryOperandsAreInRange := by
  rintro s i a hea (hload | ⟨v, hstore⟩)
  · obtain ⟨dst, hs⟩ := moveSlots_of_loadAddr hload
    exact namesSide_in_range hea (moveSlots_source_namesSide hs)
  · obtain ⟨src, hs, -⟩ := moveSlots_of_storeOf hstore
    exact namesSide_in_range hea (moveSlots_namesSide hs)

end Sys2Proof.Machine
end

section
/-! The instructions: result, frame and completion (R144 to R151, R170 to R199). -/

namespace Sys2Proof.Machine

/-! ### Loads and stores -/

/-- An instruction with a general register as destination and a source that can be read loads it. -/
theorem exec_loadsGpr {i : Instr} {s : State} {r : GReg} {src : Operand} {v : Word}
    (h : moveSlots i s = some (.reg (.gen r), src)) (hr : s.readOperand src = .ok v) :
    ∃ t, exec i s = .next t ∧ LoadsGpr s t r v i.size :=
  ⟨_, exec_write_ok h hr rfl, loadsGpr_writeReg s r v i.size⟩

theorem exec_loadsSeg {i : Instr} {s : State} {r : SReg} {src : Operand} {v : Word}
    (h : moveSlots i s = some (.reg (.seg r), src)) (hr : s.readOperand src = .ok v) :
    ∃ t, exec i s = .next t ∧ LoadsSeg s t r v i.size :=
  ⟨_, exec_write_ok h hr rfl, loadsSeg_writeReg s r v i.size⟩

/-- A store whose word is inside memory completes. -/
theorem exec_storesWord {i : Instr} {s : State} {a : Nat} {v : Word} (h : storeOf i s = some (a, v))
    (ha : a + 1 < Config.cap) : ∃ t, exec i s = .next t ∧ StoresWord s t a v i.size :=
  ⟨_, exec_store_ok h (setWord_ok v ha), storesWord_setWord s a v i.size⟩

/-- A memory operand inside memory reads as the big-endian word of its bytes (R54, R144). -/
theorem readOperand_mem {s : State} {a : Nat} {v : Word} (ha : a + 1 < Config.cap)
    (hv : v.toNat = 256 * (s.mem.read a).toNat + (s.mem.read (a + 1)).toNat) : s.readOperand (.mem a) = .ok v := by
  obtain rfl : v = be16 (s.mem.read a) (s.mem.read (a + 1)) := BitVec.eq_of_toNat_eq (hv.trans (be16_toNat _ _).symm)
  exact getWord_ok ha

/-- Settles O31: each row's slots are its register and the zero-extended byte. -/
theorem byteImmediateLoadsWholeRegister : Obligations.ByteImmediateLoadsWholeRegister := by
  intro s imm v hv
  obtain rfl : v = zext16 imm := BitVec.eq_of_toNat_eq (hv.trans (zext16_toNat imm).symm)
  exact ⟨exec_loadsGpr_imm rfl, exec_loadsGpr_imm rfl, exec_loadsGpr_imm rfl, exec_loadsGpr_imm rfl,
    exec_loadsGpr_imm rfl, exec_loadsGpr_imm rfl, exec_loadsGpr_imm rfl, exec_loadsGpr_imm rfl⟩

/-- Settles O33: the side is the source, a register or a word that can be read. -/
theorem modRMLoadsRegister : Obligations.ModRMLoadsRegister := by
  refine fun s reg rm => ⟨?_, fun a v hside ha hv => ?_⟩
  · rintro r rfl
    exact ⟨exec_loadsGpr rfl rfl, exec_loadsGpr rfl rfl⟩
  · have hr : s.readOperand (s.resolve rm) = .ok v := hside ▸ readOperand_mem ha hv
    exact ⟨exec_loadsGpr rfl hr, exec_loadsGpr rfl hr⟩

/-- Settles O34: the side is the destination, a register or the address of a word. -/
theorem modRMStoresRegister : Obligations.ModRMStoresRegister := by
  refine fun s reg rm => ⟨?_, fun a hside ha => ?_⟩
  · rintro r rfl
    exact ⟨exec_loadsGpr rfl rfl, exec_loadsGpr rfl rfl⟩
  · have haddr : operandAddress (s.resolve rm) = some a := by rw [hside]; rfl
    exact ⟨exec_storesWord (by rw [storeOf, haddr]; rfl) ha, exec_storesWord (by rw [storeOf, haddr]; rfl) ha⟩

/-- Settles O35: `SReg.paired` gives the four pairs. -/
theorem segmentMovesPairByRm : Obligations.SegmentMovesPairByRm := by
  rintro s ign g r (⟨rfl, rfl⟩ | ⟨rfl, rfl⟩ | ⟨rfl, rfl⟩ | ⟨rfl, rfl⟩) <;>
    exact ⟨exec_loadsGpr rfl rfl, exec_loadsSeg rfl rfl⟩

/-- Settles O36: the source is the word at the direct address. -/
theorem directLoadsAccumulator : Obligations.DirectLoadsAccumulator := by
  rintro s addr a v rfl ha hv
  exact ⟨exec_loadsGpr rfl (readOperand_mem ha hv), exec_loadsGpr rfl (readOperand_mem ha hv)⟩

/-- Settles O37: the destination is the word at the direct address. -/
theorem directStoresAccumulator : Obligations.DirectStoresAccumulator := by
  rintro s addr a rfl ha
  exact ⟨exec_storesWord rfl ha, exec_storesWord rfl ha⟩

/-- Settles O38: the side is the destination, and the source is the immediate, zero-extended for 0xC6. -/
theorem immediateStoresToRegisterOrMemory : Obligations.ImmediateStoresToRegisterOrMemory := by
  intro s rm b w v hw
  obtain rfl : w = zext16 b := BitVec.eq_of_toNat_eq (hw.trans (zext16_toNat b).symm)
  refine ⟨?_, fun a hside ha => ?_⟩
  · rintro r rfl
    exact ⟨exec_loadsGpr_imm rfl, exec_loadsGpr_imm rfl⟩
  · have haddr : operandAddress (s.resolve rm) = some a := by rw [hside]; rfl
    exact ⟨exec_storesWord (by rw [storeOf, haddr]; rfl) ha, exec_storesWord (by rw [storeOf, haddr]; rfl) ha⟩

/-! ### Completion under the default `P_EA_SEG` (R111, R171) -/

theorem readOperand_unsegmented {s : State} {src : Operand} (hea : s.params.eaSeg = .unsegmented)
    (h : s.NamesSide (some src)) : ∃ v, s.readOperand src = .ok v := by
  cases src with
  | reg r => exact ⟨_, rfl⟩
  | mem a => exact ⟨_, getWord_ok (namesSide_in_range hea h).2⟩
  | imm v => exact ⟨v, rfl⟩

theorem writeOperand_unsegmented {s : State} {dst : Operand} (hea : s.params.eaSeg = .unsegmented)
    (h : s.NamesSide (some dst)) (v : Word) :
    ∃ t, s.writeOperand dst v = (t, none) ∧ t.ip = s.ip ∧ t.run = s.run ∧ t.params = s.params := by
  cases dst with
  | reg r => exact ⟨_, rfl, writeReg_ip s r v, writeReg_run s r v, writeReg_params s r v⟩
  | mem a => exact ⟨_, setWord_ok v (namesSide_in_range hea h).2, rfl, rfl, rfl⟩
  | imm w => exact ⟨s, rfl, rfl, rfl, rfl⟩

/-- Every instruction with these slots completes the same write, followed by its own advance. -/
theorem exec_unsegmented {s : State} {i : Instr} {dst src : Operand} (hea : s.params.eaSeg = .unsegmented)
    (h : moveSlots i s = some (dst, src)) :
    ∃ t : State, (t.ip = s.ip ∧ t.run = s.run ∧ t.params = s.params) ∧
      ∀ j, moveSlots j s = some (dst, src) → exec j s = .next (t.advance j.size) := by
  obtain ⟨v, hr⟩ := readOperand_unsegmented hea (moveSlots_source_namesSide h)
  obtain ⟨t, hw, hfields⟩ := writeOperand_unsegmented hea (moveSlots_namesSide h) v
  exact ⟨t, hfields, fun j hj => exec_write_ok hj hr hw⟩

/-- Settles O41: HLT halts, and every Move completes. -/
theorem unsegmentedInstructionsComplete : Obligations.UnsegmentedInstructionsComplete := by
  intro s i hea
  rcases exec_eq i s with ⟨rfl, he⟩ | ⟨dst, src, hs, -⟩
  · exact ⟨_, he, rfl, fun _ => rfl, fun hne => absurd rfl hne⟩
  · obtain ⟨t, ⟨hip, hrun, hparams⟩, hexec⟩ := exec_unsegmented hea hs
    refine ⟨_, hexec i hs, ?_, ?_, fun _ => hrun⟩
    · rw [advance_ip, codeOffset_of_params hparams, hip]
      rfl
    · rintro rfl
      cases hs

/-- Instructions of one size with the same slots do the same (R170). -/
theorem exec_eq_of_same_slots {s : State} {i j : Instr} {dst src : Operand} (hea : s.params.eaSeg = .unsegmented)
    (hi : moveSlots i s = some (dst, src)) (hj : moveSlots j s = some (dst, src)) (hsize : i.size = j.size) :
    exec i s = exec j s := by
  obtain ⟨t, -, hexec⟩ := exec_unsegmented hea hi
  rw [hexec i hi, hexec j hj, hsize]

/-- Settles O42: each row and its twin have the same slots. -/
theorem widthClearRowsMoveWords : Obligations.WidthClearRowsMoveWords :=
  fun _ _ _ _ hea => ⟨exec_eq_of_same_slots hea rfl rfl rfl, exec_eq_of_same_slots hea rfl rfl rfl,
    exec_eq_of_same_slots hea rfl rfl rfl, exec_eq_of_same_slots hea rfl rfl rfl⟩

end Sys2Proof.Machine
end

section
/-! The execute loop (R140 to R156): terminal states, the halt, the code position after an instruction, and the operand
pairs Move rejects. -/

namespace Sys2Proof.Machine

/-! ### The end of a run (R141, R147) -/

/-- Settles O17: Halted and Aborted are the terminal run states. -/
theorem terminalStatesStay : Obligations.TerminalStatesStay := by
  rintro s (h | ⟨e, h⟩)
  · exact step_of_terminal (by simp [State.terminal, h])
  · exact step_of_terminal (by simp [State.terminal, h])

/-- Settles O39: the next state is `State.halt`, which writes RUN and IP alone. -/
theorem haltStopsAndChangesNothingElse : Obligations.HaltStopsAndChangesNothingElse := fun s =>
  ⟨s.halt 1, rfl, halt_run s 1, halt_ip s 1, fun _ => rfl, fun _ => rfl, halt_flags s 1, fun _ => rfl, halt_params s 1⟩

/-! ### The code position (R146, R154, R155) -/

/-- Every end of an instruction that has not aborted has made the advance (R146, R147). -/
theorem Ends.ip {s t : State} {op1 : Option Operand} {n : Nat} (h : Ends s op1 n t) (hc : t.clean) : t.ip = s.nextIp n := by
  cases h with
  | abort m e wf position => exact absurd rfl (hc e)
  | register r v slot =>
    rw [advance_ip, writeReg_ip, codeOffset_of_params (writeReg_params s r v)]
    rfl
  | memory m wf => rfl
  | halt => rfl

/-- MOV CS, CX loads CS with CX, whatever the ignored reg field (R115, R177). -/
theorem exec_movCsCx (ign : BitVec 3) (s : State) :
    ∃ t, exec (.movSegGpr ign .cs) s = .next t ∧ LoadsSeg s t .cs s.gpr.cx 2 :=
  exec_loadsSeg rfl rfl

/-- Settles O44: every end but an abort advances, and 0x8E alone writes CS (O43). -/
theorem codePositionChangesOnlyByAdvanceOrCsWrite : Obligations.CodePositionChangesOnlyByAdvanceOrCsWrite := by
  intro s t i h hc
  obtain ⟨op1, he⟩ := exec_ends h
  refine ⟨he.ip hc, ?_⟩
  by_cases hcs : t.seg.cs = s.seg.cs
  · exact .inl hcs
  · obtain ⟨ign, rfl⟩ := onlySegmentMoveWritesSegmentRegisters s t i .cs h hcs
    obtain ⟨u, hu, hl⟩ := exec_movCsCx ign s
    rw [h] at hu
    cases hu
    exact .inr ⟨ign, rfl, hl.value⟩

/-- Without `P_IP_WRAP16` the next IP is the plain sum (R146; decision D9). -/
theorem nextIp_nowrap {s : State} (h : s.params.ipWrap16 = false) (n : Nat) : s.nextIp n = s.ip + n :=
  codeOffset_nowrap h _

/-- Settles O45: the fetch after MOV CS, CX uses the new CS and the advanced IP. -/
theorem csWriteMovesNextFetch : Obligations.CsWriteMovesNextFetch := by
  intro s ign k hw
  obtain ⟨t, he, hl⟩ := exec_movCsCx ign s
  have hcs : t.seg.cs = s.gpr.cx := hl.value
  have hip : t.ip = s.ip + 2 := hl.ip.trans (nextIp_nowrap hw 2)
  have hoffset : t.codeOffset (t.ip + k) = t.ip + k := codeOffset_nowrap (hl.params ▸ hw) _
  exact ⟨t, he, by rw [State.fetchAddr, hoffset, hcs, hip, lin]⟩

/-! ### The pairs Move rejects (R149, R223) -/

/-- An empty slot, an immediate destination and memory from memory are rejected (decision D19). -/
theorem movePair_eq_none {op1 op2 : Option Operand}
    (h : op1 = none ∨ op2 = none ∨ (∃ v, op1 = some (.imm v)) ∨ ∃ a b, op1 = some (.mem a) ∧ op2 = some (.mem b)) :
    movePair op1 op2 = none := by
  rcases h with rfl | rfl | ⟨v, rfl⟩ | ⟨a, b, rfl, rfl⟩
  · rfl
  · rcases op1 with _ | (r | a | v) <;> rfl
  · rfl
  · rfl

theorem move_rejected {op1 op2 : Option Operand} (h : movePair op1 op2 = none) (opc : Byte) (n : Nat) (s : State) :
    s.move opc n op1 op2 = s.raise (.invalidOperandCombination opc s.seg.cs s.ip op1 op2) := by
  simp only [State.move, h]

theorem writeOperand_run (s : State) (dst : Operand) (v : Word) : (s.writeOperand dst v).1.run = s.run := by
  rcases writeOperand_fields s dst v with ⟨r, -, hw⟩ | ⟨a, m, o, -, hw⟩ | ⟨w, -, hw⟩ <;> rw [hw]
  exact writeReg_run s r v

/-- Move of an allowed pair keeps RUN or aborts with E4 (R150, R224). -/
theorem move_allowed_run {op1 op2 : Option Operand} {p : Operand × Operand} (h : movePair op1 op2 = some p) (opc : Byte)
    (n : Nat) (s : State) :
    (s.move opc n op1 op2).run = s.run ∨ ∃ a, (s.move opc n op1 op2).run = .aborted (s.outOfRangeAt (some opc) a) := by
  rcases move_cases opc n op1 op2 s with ⟨hp, -⟩ | ⟨dst, src, -, ⟨a, -, hm⟩ | ⟨v, -, ⟨t, ht, hm⟩ | ⟨t, a, -, hm⟩⟩⟩
  · rw [h] at hp
    cases hp
  · exact .inr ⟨a, by rw [hm, raise_run]⟩
  · have hrun := writeOperand_run s dst v
    rw [ht] at hrun
    exact .inl (by rw [hm, advance_run, hrun])
  · exact .inr ⟨a, by rw [hm, raise_run]⟩

/-- From a Running state Move of an allowed pair does not end in E3. -/
theorem move_allowed_ne_invalidOperands {op1 op2 : Option Operand} {p : Operand × Operand} {s : State}
    (h : movePair op1 op2 = some p) (hr : s.run = .running) (opc : Byte) (n : Nat) (o : Byte) (c : Word) (ip : Nat)
    (x y : Option Operand) : (s.move opc n op1 op2).run ≠ .aborted (.invalidOperandCombination o c ip x y) := by
  rcases move_allowed_run h opc n s with hm | ⟨a, hm⟩
  · simp [hm, hr]
  · simp [hm, State.outOfRangeAt]

/-- Settles O53: the check answers `none` for the rejected pairs and a pair for the others. -/
theorem moveRejectsExactlyTheListedPairs : Obligations.MoveRejectsExactlyTheListedPairs := by
  refine fun s opc n op1 op2 => ⟨fun h => ?_, ?_⟩
  · rw [move_rejected (movePair_eq_none h)]
    exact abortsUnchanged_raise _ _
  · rintro (⟨src, r, rfl, rfl⟩ | ⟨a, r, rfl, rfl⟩ | ⟨a, v, rfl, rfl⟩) hr
    · exact move_allowed_ne_invalidOperands rfl hr opc n
    · exact move_allowed_ne_invalidOperands rfl hr opc n
    · exact move_allowed_ne_invalidOperands rfl hr opc n

end Sys2Proof.Machine
end

section
/-! With IP wrap a run can go on forever (R156; decision D9): in a code segment filled with the byte 0xB0 every step is
MOV.B AX, 0xB0, which writes no memory and moves IP on within the segment. -/

namespace Sys2Proof.Machine

/-- The default parameters with `P_IP_WRAP16` true. -/
def wrapParams : Params := { defaultParams with ipWrap16 := true }

/-- The byte 0xB0 at every address below `n`. -/
def loopMemory (n : Nat) : Memory := Memory.copy [] 0 (List.replicate n 0xB0)

/-- The reset state with IP wrap, the segment at 0 as its code and the given memory. -/
def loopState (m : Memory) : State :=
  { State.reset with seg := ⟨0, 0, 0, 0⟩, mem := m, params := wrapParams }

/-- What every state of the run has: it is Running, and its code segment is filled with the byte 0xB0. -/
structure InLoop (s : State) : Prop where
  run    : s.run = .running
  cs     : s.seg.read .cs = 0
  memory : ∀ a, a < 0x10000 → s.mem.read a = 0xB0
  params : s.params = wrapParams

theorem loopMemory_wf {n : Nat} (h : n ≤ Config.cap) : (loopMemory n).wf = true :=
  Memory.wf_copy (by rwa [List.length_replicate, Nat.zero_add]) Memory.wf_nil

theorem read_loopMemory {n a : Nat} (h : a < n) : (loopMemory n).read a = 0xB0 := by
  simp [loopMemory, Memory.read_copy, h]

theorem loopState_inv {m : Memory} (h : m.wf = true) : (loopState m).Inv :=
  inv_of_clean h (fun _ => show 0x0100 < 0x10000 by decide) (clean_of_running rfl)

theorem inLoop_loopState {m : Memory} (h : ∀ a, a < 0x10000 → m.read a = 0xB0) : InLoop (loopState m) :=
  ⟨rfl, rfl, h, rfl⟩

theorem InLoop.fetchAddr_lt {s : State} (h : InLoop s) (k : Nat) : s.fetchAddr k < 0x10000 := by
  have hcs : s.seg.cs = 0 := h.cs
  have hoffset : s.codeOffset (s.ip + k) < 0x10000 := codeOffset_lt (by rw [h.params]; rfl) _
  simpa [State.fetchAddr, lin, hcs] using hoffset

theorem InLoop.fetchAddr_lt_cap {s : State} (h : InLoop s) (k : Nat) : s.fetchAddr k < Config.cap :=
  Nat.lt_trans (h.fetchAddr_lt k) (by decide)

theorem InLoop.getByte {s : State} (h : InLoop s) (k : Nat) : s.getByte (s.fetchAddr k) = .ok 0xB0 := by
  rw [getByte_ok (h.fetchAddr_lt_cap k), h.memory _ (h.fetchAddr_lt k)]

/-- Both bytes of MOV.B AX, 0xB0 are 0xB0, so it stands at every IP (R182). -/
theorem InLoop.step_eq {s : State} (h : InLoop s) : step s = exec (.movbAxImm8 0xB0) s := by
  have hbytes : encode (.movbAxImm8 0xB0) = List.replicate 2 0xB0 := rfl
  refine stepRunsEncodedBytes s _ h.run rfl (fun k hk => ?_) (fun k _ => h.fetchAddr_lt_cap k) ?_
  · rw [h.getByte]
    simp only [hbytes, List.getElem_replicate]
  · rw [h.params]
    rfl

/-- A step loads AX and leaves the run in the loop. -/
theorem InLoop.step_next {s : State} (h : InLoop s) : ∃ t, step s = .next t ∧ InLoop t := by
  obtain ⟨t, he, hl⟩ := exec_loadsGpr_imm (i := .movbAxImm8 0xB0) (s := s) rfl
  refine ⟨t, h.step_eq.trans he, hl.run.trans h.run, (hl.seg .cs).trans h.cs, fun a ha => ?_, hl.params.trans h.params⟩
  rw [hl.memory, h.memory a ha]

theorem InLoop.run_next {s : State} (h : InLoop s) (k : Nat) : ∃ t, Host.Core.run core k s = .next t ∧ InLoop t := by
  induction k generalizing s with
  | zero => exact ⟨s, rfl, h⟩
  | succ k ih =>
    obtain ⟨u, hs, hu⟩ := h.step_next
    rw [run_succ k hs]
    exact ih hu

/-- Settles O19: the run from the filled code segment. -/
theorem wrappedRunCanGoOnForever : Obligations.WrappedRunCanGoOnForever := by
  refine ⟨loopState (loopMemory 0x10000), loopState_inv (loopMemory_wf (by decide)), rfl, fun k => ?_⟩
  obtain ⟨t, hk, ht⟩ := (inLoop_loopState fun _ => read_loopMemory).run_next k
  exact ⟨t, hk, ht.run⟩

end Sys2Proof.Machine
end

section
/-! Move accepts the slots of every instruction (R171), so no instruction raises E3 (R226). -/

namespace Sys2Proof.Machine

/-- Settles O54: HLT ends in Halted, and any other instruction is the Move of its slots, a pair the check allows. -/
theorem noInstructionRaisesInvalidOperands : Obligations.NoInstructionRaisesInvalidOperands := by
  intro s t i hr h o c p x y
  rcases exec_eq i s with ⟨-, he⟩ | ⟨dst, src, hs, he⟩ <;> cases he.symm.trans h
  · simp [halt_run]
  · exact move_allowed_ne_invalidOperands (movePair_moveSlots hs) hr i.opcode i.size o c p x y

end Sys2Proof.Machine
end

section
/-! An opcode byte without a row (R221), in whatever table the parameters hold. -/

namespace Sys2Proof.Machine

/-- Settles O49: without a row the opcode's fetch is the error E1, and raising it writes RUN alone. -/
theorem unrecognizedByteAborts : Obligations.UnrecognizedByteAborts := by
  intro s opc hr h0 hl
  have hstep : step s = .next (s.raise (.unrecognizedEncoding opc s.seg.cs s.ip)) := step_of_no_row hr h0 hl
  exact ⟨_, hstep, abortsUnchanged_raise _ _⟩

end Sys2Proof.Machine
end

section
/-! The loader's initial state, item by item (R251): registers, memory with the image, and the first fetch. -/

namespace Sys2Proof.Machine

/-! ### The designated register -/

theorem loaderInit_gpr_designated (x : LaunchArgs) :
    (loaderInit x).gpr.read x.designated = setLo (x.gpr.read x.designated) 0x00 :=
  Gprs.read_write_same _ _ _

theorem loaderInit_lo_designated (x : LaunchArgs) : lo ((loaderInit x).gpr.read x.designated) = 0x00 := by
  rw [loaderInit_gpr_designated, setLo_eq, lo_be16]

theorem loaderInit_hi_designated (x : LaunchArgs) :
    hi ((loaderInit x).gpr.read x.designated) = hi (x.gpr.read x.designated) := by
  rw [loaderInit_gpr_designated, setLo_eq, hi_be16]

/-! ### Memory -/

/-- Byte `j` of a copy is `j` bytes above its base. -/
theorem Memory.read_copy_inside (m : Memory) (bs : List Byte) (a : Nat) {j : Nat} (h : j < bs.length) :
    (m.copy a bs).read (a + j) = bs[j] := by
  have inside : a ≤ a + j ∧ a + j - a < bs.length := by omega
  rw [Memory.read_copy, dif_pos inside]
  simp only [Nat.add_sub_cancel_left]

theorem Memory.read_copy_outside (m : Memory) (bs : List Byte) {a x : Nat} (h : x < a ∨ a + bs.length ≤ x) :
    (m.copy a bs).read x = m.read x := by
  have outside : ¬ (a ≤ x ∧ x - a < bs.length) := by omega
  rw [Memory.read_copy, dif_neg outside]

theorem loaderInit_read_image (x : LaunchArgs) {j : Nat} (h : j < x.image.length) :
    (loaderInit x).mem.read (imageBase + j) = x.image[j] :=
  Memory.read_copy_inside _ x.image imageBase h

/-- A valid byte below or above the image is as `P_INIT_MEM` gives it. -/
theorem loaderInit_read_outside (x : LaunchArgs) {a : Nat} (hcap : a < Config.cap)
    (hout : a < imageBase ∨ imageBase + x.image.length ≤ a) : (loaderInit x).mem.read a = Memory.read x.mem a :=
  (Memory.read_copy_outside _ x.image hout).trans (Memory.read_ofCells x.mem hcap)

/-! ### The first fetch -/

/-- IP wrap leaves the offset 0x0100 as it is, so the first fetch is at the image's base for either setting. -/
theorem loaderInit_fetchAddr_zero (x : LaunchArgs) : (loaderInit x).fetchAddr 0 = imageBase := by
  have hoff : (loaderInit x).codeOffset 0x0100 = 0x0100 := ite_self _
  exact congrArg (lin 0xF000) hoff

/-- Settles O1: a launch that answers gives the loader's state, whose parts are read off one by one. -/
theorem launchEstablishesLoaderState : Obligations.LaunchEstablishesLoaderState := by
  intro x s h
  obtain ⟨-, -, rfl⟩ := launch_eq_ok h
  have image : ∀ (j : Nat) (h : j < x.image.length), (loaderInit x).mem.read (0xF0100 + j) = x.image[j] :=
    fun _ hj => loaderInit_read_image x hj
  have outside : ∀ a, a < 0x10FFF0 → (a < 0xF0100 ∨ 0xF0100 + x.image.length ≤ a) →
      (loaderInit x).mem.read a = Memory.read x.mem a :=
    fun _ hcap hout => loaderInit_read_outside x hcap hout
  exact ⟨rfl, rfl, rfl, rfl, loaderInit_lo_designated x, loaderInit_hi_designated x,
    fun _ hr => Gprs.read_write_other x.gpr _ hr, fun _ hr => Segs.read_write_other x.seg _ hr, rfl,
    image, outside, rfl, loaderInit_fetchAddr_zero x⟩

end Sys2Proof.Machine
end
